-- ==== Sys2Proof/Config.lean ====
section
/-! DEFINITION. Config.lean: the OPEN parameters of BITFLOW-PU (spec/00_scope.md R6, R7, R8). DELIM (R9) is an
argument of `render`; LATENCY (R10) has no place in a model without time (log 10, log 11). -/

namespace Sys2Proof

/-- WORD_W, the word width: "legal values {32, 64}" (R6). -/
inductive WordWidth
  | w32
  | w64
deriving DecidableEq, Repr

/-- The number of bits WORD_W stands for (R6). -/
def WordWidth.bits : WordWidth → Nat
  | .w32 => 32
  | .w64 => 64

/-- The parameters a block is built with. They are constants of the configuration, not state (spec/10_state.md R20);
State carries them so that one step function serves every configuration (DESIGN CHOICE, log 1, safe). -/
structure Config where
  /-- WORD_W (R6). -/
  wordW : WordWidth
  /-- NS, the number of sink contexts (R7). -/
  ns : Nat
  /-- NC, the number of cursor contexts (R7). -/
  nc : Nat
  /-- CAP_BITS, the most bits one context can hold (R8). -/
  capBits : Nat
deriving DecidableEq, Repr

/-- The bounds the spec puts on the parameters: NS and NC in 1..16 (R7); CAP_BITS mod 8 = 0 and
8 ≤ CAP_BITS ≤ 2^32 − 8 (R8). -/
def Config.wf (cfg : Config) : Bool :=
  decide (1 ≤ cfg.ns ∧ cfg.ns ≤ 16 ∧ 1 ≤ cfg.nc ∧ cfg.nc ≤ 16 ∧
    cfg.capBits % 8 = 0 ∧ 8 ≤ cfg.capBits ∧ cfg.capBits ≤ 2 ^ 32 - 8)

end Sys2Proof
end

