-- ==== Sys2Proof/Machine/Params.lean ====
section
/-! DEFINITION. Machine/Params.lean: the configuration of the block that State.reset stands for. -/

namespace Sys2Proof

/-- The configuration spec/95_test_vectors.md takes "for every vector": WORD_W = 64, NS = 4, NC = 4,
CAP_BITS = 65536. The parameters are OPEN (spec/00_scope.md R6 to R8), so this one is the model's choice
(DESIGN CHOICE, log 2, unsafe: a claim about State.reset itself holds of this configuration only). -/
def resetConfig : Config :=
  { wordW := .w64, ns := 4, nc := 4, capBits := 65536 }

end Sys2Proof
end

