-- ==== Sys2Proof/Word.lean ====
section
/-! DEFINITION. Word.lean: the value types of BITFLOW-PU (spec/00_scope.md R11, R12; spec/30_encoding.md R81). -/

namespace Sys2Proof

/-- One byte of a payload or of the output byte stream. -/
abbrev Byte := BitVec 8

/-- A bit sequence, index 0 first (R11). -/
abbrev Bits := List Bool

/-- A 32-bit command word (R81), also the width of a host-visible register (R27, R28, R30, R31). -/
abbrev Word32 := BitVec 32

/-- A data word, DIN or DOUT. WORD_W is 32 or 64 (R6): the low WORD_W bits are live, and with WORD_W = 32
the upper half of the 64 does not exist on the hardware (DESIGN CHOICE, log 5, safe). -/
abbrev DataWord := BitVec 64

end Sys2Proof
end

