-- ==== Sys2Proof/Syntax.lean ====
section
/-! DEFINITION. Syntax.lean: the 23 commands of the opcode map (spec/30_encoding.md R86) as the decoder returns
them (R94), and the command message of the channel (R80). -/

namespace Sys2Proof

/-- The 2-bit width selector WSEL (R82). -/
inductive WSel
  | w8
  | w16
  | w32
  | wW
deriving DecidableEq, Repr

/-- A 4-bit context index, CTXA or CTXB (R84). -/
abbrev CtxIdx := BitVec 4

/-- The 16-bit immediate IMM (R83). -/
abbrev Imm := BitVec 16

/-- One constructor per row of spec/opcode_table.json. `a` is CTXA, `b` a second context is CTXB; `v` is IMM[0];
`n` is the bit count b of a truncated field; `count` is a byte count. DIN and the payload are not part of the
instruction: they come with the command in progress (R80, R85). -/
inductive Instr
  /-- R230. -/
  | nop
  /-- R111: sink a. -/
  | snew (a : CtxIdx)
  /-- R112: sink a, bit v. -/
  | spushb (a : CtxIdx) (v : Bool)
  /-- R113: sink a, bit v; the index is DIN. -/
  | sovwr (a : CtxIdx) (v : Bool)
  /-- R114: width w, sink a; the value is DIN. -/
  | spushf (w : WSel) (a : CtxIdx)
  /-- R115: width w, sink a, n bits; the value is DIN. -/
  | spusht (w : WSel) (a : CtxIdx) (n : Imm)
  /-- R116: sink a; the bytes are the payload. -/
  | spushy (a : CtxIdx) (count : Imm)
  /-- R117: sink a. -/
  | spad (a : CtxIdx)
  /-- R118: destination sink a, source sink b. -/
  | sapps (a b : CtxIdx)
  /-- R119: destination sink a, source cursor b. -/
  | sappc (a b : CtxIdx)
  /-- R120: sink a, destination cursor b. -/
  | sfinc (a b : CtxIdx)
  /-- R121: sink a. -/
  | sfinb (a : CtxIdx)
  /-- R171: cursor a; the bytes are the payload. -/
  | cnewb (a : CtxIdx) (count : Imm)
  /-- R172: cursor a. -/
  | crdb (a : CtxIdx)
  /-- R173: width w, cursor a. -/
  | crdf (w : WSel) (a : CtxIdx)
  /-- R174: width w, cursor a, n bits. -/
  | crdt (w : WSel) (a : CtxIdx) (n : Imm)
  /-- R175: cursor a. -/
  | crdy (a : CtxIdx) (count : Imm)
  /-- R176: cursor a. -/
  | crem (a : CtxIdx)
  /-- R177: cursor a. -/
  | ctot (a : CtxIdx)
  /-- R178: cursor a. -/
  | cexh (a : CtxIdx)
  /-- R179: source cursor a, destination cursor b. -/
  | csplt (a b : CtxIdx)
  /-- R180: cursor a. -/
  | cbytes (a : CtxIdx)
  /-- R231. -/
  | srst
deriving DecidableEq, Repr

/-- The message the host gives the block: `{ cmd, din, payload }` (R80). -/
structure Command where
  /-- The command word (R81). -/
  word : Word32
  /-- The data operand; its low WORD_W bits are what the port carries (R85, log 5). -/
  din : DataWord
  /-- The byte run SPUSHY and CNEWB consume (R89). -/
  payload : List Byte
deriving DecidableEq, Repr

end Sys2Proof
end

