-- ==== Sys2Proof/WellFormed.lean ====
section
/-! DEFINITION. WellFormed.lean: the operand checks a legal command passes (spec/30_encoding.md R84, R89, R90),
as a decidable predicate on the instruction, the configuration and the payload length. -/

namespace Sys2Proof

/-- Whether every context the command names exists: a sink index is < NS and a cursor index < NC (R84; which
kind each field names is the table of R86). -/
def Instr.indexOk (cfg : Config) : Instr → Bool
  | .nop | .srst => true
  | .snew a | .spushb a _ | .sovwr a _ | .spushf _ a | .spusht _ a _ | .spushy a _ | .spad a | .sfinb a =>
    decide (a.toNat < cfg.ns)
  | .sapps a b => decide (a.toNat < cfg.ns) && decide (b.toNat < cfg.ns)
  | .sappc a b | .sfinc a b => decide (a.toNat < cfg.ns) && decide (b.toNat < cfg.nc)
  | .cnewb a _ | .crdb a | .crdf _ a | .crdt _ a _ | .crdy a _ | .crem a | .ctot a | .cexh a | .cbytes a =>
    decide (a.toNat < cfg.nc)
  | .csplt a b => decide (a.toNat < cfg.nc) && decide (b.toNat < cfg.nc)

/-- SAPPS and CSPLT name two different contexts (R90). -/
def Instr.noAlias : Instr → Bool
  | .sapps a b | .csplt a b => decide (a ≠ b)
  | .nop | .srst | .snew _ | .spushb _ _ | .sovwr _ _ | .spushf _ _ | .spusht _ _ _ | .spushy _ _ | .spad _
  | .sfinb _ | .sappc _ _ | .sfinc _ _ | .cnewb _ _ | .crdb _ | .crdf _ _ | .crdt _ _ _ | .crdy _ _ | .crem _
  | .ctot _ | .cexh _ | .cbytes _ => true

/-- The payload length the command needs: count for SPUSHY and CNEWB, 0 otherwise (R89). -/
def Instr.payloadNeed : Instr → Nat
  | .spushy _ count | .cnewb _ count => count.toNat
  | .nop | .srst | .snew _ | .spushb _ _ | .sovwr _ _ | .spushf _ _ | .spusht _ _ _ | .spad _
  | .sfinb _ | .sapps _ _ | .sappc _ _ | .sfinc _ _ | .crdb _ | .crdf _ _ | .crdt _ _ _ | .crdy _ _ | .crem _
  | .ctot _ | .cexh _ | .csplt _ _ | .cbytes _ => 0

/-- A well-formed instruction of a block with parameters `cfg` (R84, R90). -/
def Instr.wf (cfg : Config) (i : Instr) : Bool :=
  i.indexOk cfg && i.noAlias

/-- A well-formed instruction that comes with the payload it needs: decode accepts it (R84, R89, R90). -/
def Instr.legal (cfg : Config) (payloadLen : Nat) (i : Instr) : Bool :=
  i.wf cfg && payloadLen == i.payloadNeed

end Sys2Proof
end

