-- ==== Sys2Proof/Decode.lean ====
section
/-! DEFINITION. Decode.lean: command word to instruction, and back (spec/30_encoding.md R81 to R94). -/

namespace Sys2Proof

/-! ### The one format (R81) -/

/-- The five fields of a command word (R81). -/
structure Fields where
  /-- Bits 5:0. -/
  op : BitVec 6
  /-- Bits 7:6. -/
  wsel : BitVec 2
  /-- Bits 11:8. -/
  ctxa : BitVec 4
  /-- Bits 15:12. -/
  ctxb : BitVec 4
  /-- Bits 31:16. -/
  imm : BitVec 16
deriving DecidableEq, Repr

/-- The fields of a word (R81). -/
def Fields.unpack (w : Word32) : Fields where
  op := w.extractLsb' 0 6
  wsel := w.extractLsb' 6 2
  ctxa := w.extractLsb' 8 4
  ctxb := w.extractLsb' 12 4
  imm := w.extractLsb' 16 16

/-- The word of the fields: IMM·2^16 + CTXB·2^12 + CTXA·2^8 + WSEL·2^6 + OP (R81). -/
def Fields.pack (f : Fields) : Word32 :=
  f.imm ++ f.ctxb ++ f.ctxa ++ f.wsel ++ f.op

/-- WSEL 00, 01, 10, 11 (R82). -/
def WSel.ofBits (x : BitVec 2) : WSel :=
  match x.toNat with
  | 0 => .w8
  | 1 => .w16
  | 2 => .w32
  | _ => .wW

/-- The code of a width selector (R82). -/
def WSel.toBits : WSel → BitVec 2
  | .w8 => 0
  | .w16 => 1
  | .w32 => 2
  | .wW => 3

/-- A bit value as an immediate: IMM[0] = v, IMM[15:1] = 0 (R83). -/
def immOfBit (v : Bool) : Imm :=
  if v then 1 else 0

/-! ### The opcode map (R86) -/

/-- How a context field is used: reserved (`0`), a sink index (`s`) or a cursor index (`c`) (R84, R86). -/
inductive CtxUse
  | reserved
  | sink
  | cursor
deriving DecidableEq, Repr

/-- How IMM is used: reserved (`0`), a bit value (`v in [0]`), or a bit or byte count (R83, R86). -/
inductive ImmUse
  | reserved
  | bit
  | count
deriving DecidableEq, Repr

/-- One row of the table of R86. -/
structure Row where
  /-- WSEL selects a width (`N`); otherwise it is reserved. -/
  usesWidth : Bool
  /-- Use of CTXA. -/
  ctxa : CtxUse
  /-- Use of CTXB. -/
  ctxb : CtxUse
  /-- Use of IMM. -/
  imm : ImmUse
  /-- CTXA = CTXB is refused: SAPPS and CSPLT (R90). -/
  noAlias : Bool
  /-- The payload is `count` bytes: SPUSHY and CNEWB (R89). -/
  takesPayload : Bool
  /-- The operation with its operands. -/
  make : WSel → CtxIdx → CtxIdx → Imm → Instr

/-- A row whose only operand is the context CTXA. -/
def Row.one (use : CtxUse) (make : CtxIdx → Instr) : Row :=
  { usesWidth := false, ctxa := use, ctxb := .reserved, imm := .reserved, noAlias := false,
    takesPayload := false, make := fun _ a _ _ => make a }

/-- A row with the context CTXA and an immediate, a width selector or a payload. -/
def Row.withImm (use : CtxUse) (imm : ImmUse) (usesWidth takesPayload : Bool)
    (make : WSel → CtxIdx → Imm → Instr) : Row :=
  { usesWidth := usesWidth, ctxa := use, ctxb := .reserved, imm := imm, noAlias := false,
    takesPayload := takesPayload, make := fun w a _ m => make w a m }

/-- A row with two contexts. -/
def Row.two (ua ub : CtxUse) (noAlias : Bool) (make : CtxIdx → CtxIdx → Instr) : Row :=
  { usesWidth := false, ctxa := ua, ctxb := ub, imm := .reserved, noAlias := noAlias,
    takesPayload := false, make := fun _ a b _ => make a b }

/-- The table of R86. An OP value with no row is undefined (R88). -/
def rowOf (op : BitVec 6) : Option Row :=
  match op.toNat with
  | 0x00 => some (Row.one .reserved fun _ => .nop)
  | 0x01 => some (Row.one .sink .snew)
  | 0x02 => some (Row.withImm .sink .bit false false fun _ a m => .spushb a (m.getLsbD 0))
  | 0x03 => some (Row.withImm .sink .bit false false fun _ a m => .sovwr a (m.getLsbD 0))
  | 0x04 => some (Row.withImm .sink .reserved true false fun w a _ => .spushf w a)
  | 0x05 => some (Row.withImm .sink .count true false fun w a m => .spusht w a m)
  | 0x06 => some (Row.withImm .sink .count false true fun _ a m => .spushy a m)
  | 0x07 => some (Row.one .sink .spad)
  | 0x08 => some (Row.two .sink .sink true .sapps)
  | 0x09 => some (Row.two .sink .cursor false .sappc)
  | 0x0A => some (Row.two .sink .cursor false .sfinc)
  | 0x0B => some (Row.one .sink .sfinb)
  | 0x10 => some (Row.withImm .cursor .count false true fun _ a m => .cnewb a m)
  | 0x11 => some (Row.one .cursor .crdb)
  | 0x12 => some (Row.withImm .cursor .reserved true false fun w a _ => .crdf w a)
  | 0x13 => some (Row.withImm .cursor .count true false fun w a m => .crdt w a m)
  | 0x14 => some (Row.withImm .cursor .count false false fun _ a m => .crdy a m)
  | 0x15 => some (Row.one .cursor .crem)
  | 0x16 => some (Row.one .cursor .ctot)
  | 0x17 => some (Row.one .cursor .cexh)
  | 0x18 => some (Row.two .cursor .cursor true .csplt)
  | 0x19 => some (Row.one .cursor .cbytes)
  | 0x3F => some (Row.one .reserved fun _ => .srst)
  | _ => none

/-! ### The decoder (R94) -/

/-- Why decode refuses a command. Each is ILLEGAL_CMD to the host (spec/60_exceptions.md R243). -/
inductive DecodeError
  /-- An undefined OP (R88). -/
  | undefinedOp
  /-- A nonzero reserved field, IMM[15:1] of SPUSHB and SOVWR included (R87). -/
  | reservedField
  /-- A context index ≥ NS or NC (R84). -/
  | contextIndex
  /-- SAPPS or CSPLT with CTXA = CTXB (R90). -/
  | selfAlias
  /-- A payload whose length is not the one the command needs (R89). -/
  | payloadLength
deriving DecidableEq, Repr

/-- A context field that the row marks reserved is zero (R87). -/
def CtxUse.zeroIfReserved (u : CtxUse) (x : CtxIdx) : Bool :=
  match u with
  | .reserved => x == 0
  | .sink | .cursor => true

/-- A context index is in range (R84). -/
def CtxUse.inRange (cfg : Config) (u : CtxUse) (x : CtxIdx) : Bool :=
  match u with
  | .reserved => true
  | .sink => decide (x.toNat < cfg.ns)
  | .cursor => decide (x.toNat < cfg.nc)

/-- The immediate's reserved bits are zero (R83, R87). -/
def ImmUse.reservedZero (u : ImmUse) (m : Imm) : Bool :=
  match u with
  | .reserved => m == 0
  | .bit => m.extractLsb' 1 15 == 0
  | .count => true

/-- Every reserved bit of the row is zero (R87). -/
def Row.reservedOk (r : Row) (f : Fields) : Bool :=
  (r.usesWidth || f.wsel == 0) && r.ctxa.zeroIfReserved f.ctxa && r.ctxb.zeroIfReserved f.ctxb &&
    r.imm.reservedZero f.imm

/-- The payload length the row needs (R89). -/
def Row.need (r : Row) (f : Fields) : Nat :=
  if r.takesPayload then f.imm.toNat else 0

/-- The decode step: a total function of the command word, the payload's length and the configuration (R94). -/
def decode (cfg : Config) (w : Word32) (payloadLen : Nat) : Except DecodeError Instr :=
  let f := Fields.unpack w
  match rowOf f.op with
  | none => .error .undefinedOp
  | some r =>
    if !r.reservedOk f then .error .reservedField
    else if !(r.ctxa.inRange cfg f.ctxa && r.ctxb.inRange cfg f.ctxb) then .error .contextIndex
    else if r.noAlias && f.ctxa == f.ctxb then .error .selfAlias
    else if payloadLen != r.need f then .error .payloadLength
    else .ok (r.make (WSel.ofBits f.wsel) f.ctxa f.ctxb f.imm)

/-- Decode of a whole command (R94). -/
def Command.decode (cfg : Config) (c : Command) : Except DecodeError Instr :=
  Sys2Proof.decode cfg c.word c.payload.length

/-! ### The encoder (R86, R95) -/

/-- The fields of an instruction: fields the syntax does not name encode as 0 (R86, R95). -/
def Instr.fields : Instr → Fields
  | .nop => ⟨0x00, 0, 0, 0, 0⟩
  | .snew a => ⟨0x01, 0, a, 0, 0⟩
  | .spushb a v => ⟨0x02, 0, a, 0, immOfBit v⟩
  | .sovwr a v => ⟨0x03, 0, a, 0, immOfBit v⟩
  | .spushf w a => ⟨0x04, w.toBits, a, 0, 0⟩
  | .spusht w a n => ⟨0x05, w.toBits, a, 0, n⟩
  | .spushy a count => ⟨0x06, 0, a, 0, count⟩
  | .spad a => ⟨0x07, 0, a, 0, 0⟩
  | .sapps a b => ⟨0x08, 0, a, b, 0⟩
  | .sappc a b => ⟨0x09, 0, a, b, 0⟩
  | .sfinc a b => ⟨0x0A, 0, a, b, 0⟩
  | .sfinb a => ⟨0x0B, 0, a, 0, 0⟩
  | .cnewb a count => ⟨0x10, 0, a, 0, count⟩
  | .crdb a => ⟨0x11, 0, a, 0, 0⟩
  | .crdf w a => ⟨0x12, w.toBits, a, 0, 0⟩
  | .crdt w a n => ⟨0x13, w.toBits, a, 0, n⟩
  | .crdy a count => ⟨0x14, 0, a, 0, count⟩
  | .crem a => ⟨0x15, 0, a, 0, 0⟩
  | .ctot a => ⟨0x16, 0, a, 0, 0⟩
  | .cexh a => ⟨0x17, 0, a, 0, 0⟩
  | .csplt a b => ⟨0x18, 0, a, b, 0⟩
  | .cbytes a => ⟨0x19, 0, a, 0, 0⟩
  | .srst => ⟨0x3F, 0, 0, 0, 0⟩

/-- The command word of an instruction (R81, R86). -/
def encode (i : Instr) : Word32 :=
  i.fields.pack

/-! ### Words as spec/opcode_table.json numbers them -/

/-- The payload length a bare word asks for: `need` of R94, from the word alone. -/
def payloadNeedOf (w : Word32) : Nat :=
  match rowOf (Fields.unpack w).op with
  | none => 0
  | some r => r.need (Fields.unpack w)

/-- The command word of the low `nbits` bits of `w` (every word is one 32-bit message, R93). -/
def tableWord (nbits w : Nat) : Word32 :=
  BitVec.ofNat 32 (w % 2 ^ nbits)

/-- The instruction the decoder reads from a table word that comes with the payload length it asks for, on the
block of State.reset (log 16). -/
def decodeTableWord (nbits w : Nat) : Option Instr :=
  match decode resetConfig (tableWord nbits w) (payloadNeedOf (tableWord nbits w)) with
  | .ok i => some i
  | .error _ => none

end Sys2Proof
end

