-- ==== Sys2Proof/Machine/Bits.lean ====
section
/-! DEFINITION. Machine/Bits.lean: the bit-sequence functions of spec/00_scope.md R11 and R13, the byte image and
the debug rendering of spec/20_memory.md (R51 to R56, R72). -/

namespace Sys2Proof.Machine

/-- `bits_of(v, n) = [bit(v,0), …, bit(v,n−1)]`, the n low bits of v, least significant first (R13, R52). -/
def bitsOf (v n : Nat) : Bits :=
  (List.range n).map fun j => v.testBit j

/-- `from_bits(t) = Σ t[j]·2^j` (R13), written bit by bit from the most significant end. -/
def fromBits : Bits → Nat
  | [] => 0
  | b :: t => b.toNat + 2 * fromBits t

/-- `slice(s, a, n)`: the n bits from index a on. The spec defines it only for a + n ≤ len(s) (R11), and every
command checks that first (log 14). -/
def slice (s : Bits) (a n : Nat) : Bits :=
  (s.drop a).take n

/-- `bytes_to_seq([B_0, …]) = bits_of(B_0, 8) ++ …`: the caller's order, each byte LSB first (R13, R53). -/
def bytesToSeq (bytes : List Byte) : Bits :=
  bytes.flatMap fun b => bitsOf b.toNat 8

/-- The number of bytes of a byte image: ⌈len/8⌉ (R13, R55). -/
def byteCount (len : Nat) : Nat :=
  (len + 7) / 8

/-- Byte k of the image: the bits 8k to 8k+7 the sequence has, LSB first, zero-filled above (R13, R51, R55). -/
def imageByte (s : Bits) (k : Nat) : Byte :=
  BitVec.ofNat 8 (fromBits (slice s (8 * k) 8))

/-- `seq_to_bytes(s)`, the byte image (R13, R55). -/
def seqToBytes (s : Bits) : List Byte :=
  (List.range (byteCount s.length)).map (imageByte s)

/-- The number of zero bits SPAD appends: (8 − len mod 8) mod 8, 0 to 7 (spec/40_sink.md R117). -/
def padCount (len : Nat) : Nat :=
  (8 - len % 8) % 8

/-- The bytes of a run of `count` bytes read at offset `off`: byte j is the 8 bits from off + 8j on, whatever
off mod 8 is (spec/41_cursor.md R175). -/
def readRun (s : Bits) (off count : Nat) : List Byte :=
  (List.range count).map fun j => BitVec.ofNat 8 (fromBits (slice s (off + 8 * j) 8))

/-! ### Debug rendering (R72) -/

/-- The character for an index beyond the sequence (spec/00_scope.md R9). -/
def placeholder : Char := '.'

/-- `ch(s, x)` of R72. -/
def renderBit (s : Bits) (x : Nat) : Char :=
  match s[x]? with
  | some true => '1'
  | some false => '0'
  | none => placeholder

/-- `group(s, k)` of R72: eight characters, the most significant bit of the byte first. -/
def renderGroup (s : Bits) (k : Nat) : List Char :=
  [7, 6, 5, 4, 3, 2, 1, 0].map fun i => renderBit s (8 * k + i)

/-- `render(s)` of R72, as a list of characters. DELIM is OPEN (R9), so it is an argument (log 10). -/
def render (delim : List Char) (s : Bits) : List Char :=
  List.intercalate delim ((List.range (byteCount s.length)).map (renderGroup s))

end Sys2Proof.Machine
end

