-- ==== Sys2Proof/Machine/State.lean ====
section
/-! DEFINITION. Machine/State.lean: the state of the block (spec/10_state.md R20), with the host's side of the
command channel (spec/30_encoding.md R80, R92; spec/60_exceptions.md R258), and the state after reset (R38). -/

namespace Sys2Proof.Machine

/-! ### Context register files -/

/-- `st` of a sink context (R22). -/
inductive SinkStatus
  | active
  | finalized
deriving DecidableEq, Repr

/-- A sink context (R22). -/
structure Sink where
  /-- ACTIVE or FINALIZED. -/
  st : SinkStatus
  /-- The bits appended so far. -/
  seq : Bits
deriving DecidableEq, Repr

/-- A cursor context (R24). -/
structure Cursor where
  /-- Whether a cursor has been constructed in the context. -/
  valid : Bool
  /-- The view: the fixed bit sequence it reads. -/
  seq : Bits
  /-- The read offset. -/
  off : Nat
deriving DecidableEq, Repr

/-- A sink as reset and SNEW leave it: ACTIVE and empty (R38, spec/40_sink.md R111). -/
def Sink.empty : Sink :=
  { st := .active, seq := [] }

/-- A FINALIZED sink, with its canonical empty contents (R39). -/
def Sink.consumed : Sink :=
  { st := .finalized, seq := [] }

/-- A cursor as reset leaves it: invalid, with its canonical empty contents (R38, R39). -/
def Cursor.invalid : Cursor :=
  { valid := false, seq := [], off := 0 }

/-- A cursor just constructed over a view: valid, offset 0 (spec/41_cursor.md R171). -/
def Cursor.over (seq : Bits) : Cursor :=
  { valid := true, seq := seq, off := 0 }

/-! ### The host's side -/

/-- What the host can do to the block (spec/60_exceptions.md R258; log 7); fault_o is an output level (R33). -/
inductive HostEvent
  /-- Issue a command (spec/30_encoding.md R80). -/
  | command (c : Command)
  /-- Read the register port (R32). The width of an address is not given: a natural (log 8). -/
  | readReg (addr : Nat)
  /-- Assert the reset input between transactions (spec/70_reset_and_hazards.md R270). -/
  | resetInput
deriving DecidableEq, Repr

/-- The response to a command (spec/30_encoding.md R92). -/
structure Response where
  /-- STATUS after the command. -/
  status : Word32
  /-- DOUT after the command. -/
  dout : DataWord
  /-- The output byte stream. -/
  bytesOut : List Byte
deriving DecidableEq, Repr

/-- What the block gives back for one interaction (spec/60_exceptions.md R258). -/
inductive Reply
  /-- The response to a command. -/
  | response (r : Response)
  /-- The 32 bits of a register read (R32). -/
  | regValue (v : Word32)
  /-- The reset input has taken effect (spec/70_reset_and_hazards.md R272); it carries no data (log 4). -/
  | resetDone
deriving DecidableEq, Repr

/-! ### The state -/

/-- The state: the five parts of the Block record of R20 (`sinks`, `cursors`, `status`, `fcmd`, `dout`), and three
fields of the model's own (`cfg` log 1, `chan` log 3, `reply` log 4). -/
structure State where
  /-- The OPEN parameters of this block; no step changes them (log 1). -/
  cfg : Config
  /-- S: the sink contexts, NS of them (R22). -/
  sinks : List Sink
  /-- C: the cursor contexts, NC of them (R24). -/
  cursors : List Cursor
  /-- STATUS (R27). -/
  status : Word32
  /-- FCMD (R28). -/
  fcmd : Word32
  /-- DOUT: the low WORD_W bits (R29, log 5). -/
  dout : DataWord
  /-- The host's interactions not yet completed, next first; the head is the one in progress (R80, log 3). -/
  chan : List HostEvent
  /-- What the block gave back for the last interaction (R92, log 4). -/
  reply : Option Reply
deriving DecidableEq, Repr

/-- Reasons for which the machine stops. There are none: every fault of spec/60_exceptions.md R240 is a precise
fault entry (R247), which is a next state, and a halted block goes on answering (R248). With no constructor,
no meaning can answer with a fault (DEDUCED, log 15, safe). -/
inductive Fault
deriving DecidableEq, Repr

/-- Reasons for which the model gives an instruction no meaning. -/
inductive Refusal
  /-- An instruction with no meaning yet, raised only by a refused arm of `exec`; no arm is refused now. Safe. -/
  | notModelled (mnemonic : String)
deriving DecidableEq, Repr

/-- The block with parameters `cfg` right after reset: the table of R38. -/
def State.resetFor (cfg : Config) : State where
  cfg := cfg
  sinks := List.replicate cfg.ns Sink.empty
  cursors := List.replicate cfg.nc Cursor.invalid
  status := 0
  fcmd := 0
  dout := 0
  chan := []
  reply := none

/-- The machine right after reset (R38), for the parameters of `resetConfig` (log 2). -/
def State.reset : State :=
  State.resetFor resetConfig

end Sys2Proof.Machine
end

