-- ==== Sys2Proof/Machine/Flags.lean ====
section
/-! DEFINITION. Machine/Flags.lean: STATUS and its fields (spec/10_state.md R27, R33, R36) and the fault codes
(spec/60_exceptions.md R240). -/

namespace Sys2Proof.Machine

/-- The fault kinds (R240). -/
inductive FaultKind
  /-- A read or overwrite outside the sequence (R241). -/
  | bounds
  /-- A truncated bit count above the field width (R242). -/
  | width
  /-- A command decode refuses (R243). -/
  | illegalCmd
  /-- A finalized sink or an invalid cursor used (R244). -/
  | ctxState
  /-- A context would exceed CAP_BITS (R245). -/
  | capacity
deriving DecidableEq, Repr

/-- The code written to STATUS.ERRCODE (R240). -/
def FaultKind.code : FaultKind → BitVec 4
  | .bounds => 1
  | .width => 2
  | .illegalCmd => 3
  | .ctxState => 4
  | .capacity => 5

/-- The value fault entry gives STATUS: `(code(K) << 4) | 1` (spec/60_exceptions.md R247). -/
def FaultKind.statusWord (k : FaultKind) : Word32 :=
  (k.code.setWidth 32 <<< 4) ||| 1

/-- STATUS.HALT, bit 0 (R27). -/
def State.halted (s : State) : Bool :=
  s.status.getLsbD 0

/-- STATUS.ERRCODE, bits 7:4 (R27). -/
def State.errCode (s : State) : BitVec 4 :=
  s.status.extractLsb' 4 4

/-- The output level fault_o, equal to STATUS.HALT at all times (R33). -/
def State.faultO (s : State) : Bool :=
  s.halted

end Sys2Proof.Machine
end

