-- ==== Sys2Proof/Machine/Operands.lean ====
section
/-! DEFINITION. Machine/Operands.lean: where a command's operands come from: the command in progress, DIN, the
payload, the field width and the contexts (spec/30_encoding.md R80 to R85, spec/10_state.md R35). -/

namespace Sys2Proof.Machine

/-- The command in progress: the head of the channel. The default for a channel whose head is no command is never
used by a step (spec/00_scope.md R14, log 3). -/
def State.current (s : State) : Command :=
  match s.chan with
  | .command c :: _ => c
  | _ => { word := 0, din := 0, payload := [] }

/-- `cmd`: the command word in progress (R14). -/
def State.cmdWord (s : State) : Word32 :=
  s.current.word

/-- `payload`: the byte run in progress (R14, R89). -/
def State.payload (s : State) : List Byte :=
  s.current.payload

/-- DIN: all WORD_W bits of the data operand, unsigned (R85, log 5). -/
def State.din (s : State) : Nat :=
  s.current.din.toNat % 2 ^ s.cfg.wordW.bits

/-- The field width N that WSEL selects (R82). -/
def State.fieldWidth (s : State) (w : WSel) : Nat :=
  match w with
  | .w8 => 8
  | .w16 => 16
  | .w32 => 32
  | .wW => s.cfg.wordW.bits

/-- `DIN[N−1:0]`: the bits above are ignored (R85). -/
def State.dinField (s : State) (w : WSel) : Nat :=
  s.din % 2 ^ s.fieldWidth w

/-- `S[a]`, when the block has that sink (spec/10_state.md R22). -/
def State.sink (s : State) (a : CtxIdx) : Option Sink :=
  s.sinks[a.toNat]?

/-- `C[a]`, when the block has that cursor (spec/10_state.md R24). -/
def State.cursor (s : State) (a : CtxIdx) : Option Cursor :=
  s.cursors[a.toNat]?

end Sys2Proof.Machine
end

