-- ==== Sys2Proof/Machine/Ops.lean ====
section
/-! DEFINITION. Machine/Ops.lean: the operations the meanings share: checks, writes, fault entry, the halt, reset,
responses and the register read port. -/

namespace Sys2Proof.Machine

/-- The outcome of a step of this machine. -/
abbrev Outcome := Host.Outcome State Fault Refusal

/-- The body of a command: the state it writes and the bytes it outputs, or the fault it raises, in which case
none of its writes happen (spec/00_scope.md R14). -/
abbrev Effect := Except FaultKind (State × List Byte)

/-! ### Writes -/

/-- `S[a] <- k`. -/
def State.setSink (s : State) (a : CtxIdx) (k : Sink) : State :=
  { s with sinks := s.sinks.set a.toNat k }

/-- `C[a] <- c`. -/
def State.setCursor (s : State) (a : CtxIdx) (c : Cursor) : State :=
  { s with cursors := s.cursors.set a.toNat c }

/-- `DOUT <- zext_WORD_W(v)`: the register holds WORD_W bits (spec/10_state.md R29, log 5). -/
def State.setDout (s : State) (v : Nat) : State :=
  { s with dout := BitVec.ofNat 64 (v % 2 ^ s.cfg.wordW.bits) }

/-- `S[a].seq <- q` of an ACTIVE sink. -/
def State.setSeq (s : State) (a : CtxIdx) (q : Bits) : State :=
  s.setSink a { st := .active, seq := q }

/-! ### Responses, fault entry, halt and reset -/

/-- Give the response to a command: STATUS and DOUT after it, and the output stream (spec/30_encoding.md R92). -/
def State.respond (s : State) (bytesOut : List Byte) : State :=
  { s with reply := some (.response { status := s.status, dout := s.dout, bytesOut := bytesOut }) }

/-- Fault entry: STATUS <- (code << 4) | 1, FCMD <- cmd, contexts and DOUT unchanged; the response carries the new
STATUS, DOUT and no bytes (spec/60_exceptions.md R247). -/
def State.faultEntry (s : State) (k : FaultKind) : State :=
  { s with status := k.statusWord, fcmd := s.cmdWord }.respond []

/-- A command that a halted block does not perform: no state changes, and the response carries STATUS and DOUT
(spec/60_exceptions.md R248). -/
def State.notPerformed (s : State) : State :=
  s.respond []

/-- Raise fault K; a halted block reports no new fault (spec/60_exceptions.md R246, R250). -/
def State.raise (s : State) (k : FaultKind) : State :=
  if s.halted then s.notPerformed else s.faultEntry k

/-- The effect of reset: every piece of the block's state at its reset value (spec/70_reset_and_hazards.md R271).
The parameters are constants; the channel is the host's (log 3). -/
def State.blockReset (s : State) : State :=
  { State.resetFor s.cfg with chan := s.chan, reply := s.reply }

/-- The reset input (spec/70_reset_and_hazards.md R270, R272). -/
def State.resetByInput (s : State) : State :=
  { s.blockReset with reply := some .resetDone }

/-- Perform command `i` with the given body, in the check order of spec/60_exceptions.md R246: the halt, then
ILLEGAL_CMD, then the checks of the body. Decode has refused an illegal command before this is reached; the
check stands here too so that `exec` answers as the spec says on every operand (DEDUCED, log 6, safe). -/
def State.perform (s : State) (i : Instr) (body : Effect) : Outcome :=
  if s.halted then .next s.notPerformed
  else if i.legal s.cfg s.payload.length then
    match body with
    | .ok (t, bytesOut) => .next (t.respond bytesOut)
    | .error k => .next (s.faultEntry k)
  else .next (s.faultEntry .illegalCmd)

/-! ### Checks -/

/-- `if not cond: raise K`. -/
def require (cond : Bool) (k : FaultKind) : Except FaultKind Unit :=
  if cond then .ok () else .error k

/-- `check_sink(a)`, then S[a].seq: CTX_STATE on a FINALIZED sink (spec/40_sink.md R110). A sink the block does
not have is ILLEGAL_CMD, which `perform` has raised already (log 13). -/
def State.activeSeq (s : State) (a : CtxIdx) : Except FaultKind Bits :=
  match s.sink a with
  | none => .error .illegalCmd
  | some k =>
    match k.st with
    | .active => .ok k.seq
    | .finalized => .error .ctxState

/-- `check_cursor(a)`, then C[a]: CTX_STATE on an invalid cursor (spec/41_cursor.md R170). A cursor the block does
not have is ILLEGAL_CMD, which `perform` has raised already (log 13). -/
def State.validCursor (s : State) (a : CtxIdx) : Except FaultKind Cursor :=
  match s.cursor a with
  | none => .error .illegalCmd
  | some c => if c.valid then .ok c else .error .ctxState

/-- `if len > CAP_BITS: raise CAPACITY` (spec/60_exceptions.md R245). -/
def State.requireCapacity (s : State) (len : Nat) : Except FaultKind Unit :=
  require (decide (len ≤ s.cfg.capBits)) .capacity

/-! ### Shared bodies -/

/-- Append `bits` to sink a, whose sequence is `q`, after the capacity check on the new length. -/
def State.append (s : State) (a : CtxIdx) (q bits : Bits) : Effect := do
  s.requireCapacity (q.length + bits.length)
  return (s.setSeq a (q ++ bits), [])

/-- Append the low n bits of DIN[N−1:0] to sink a: the bodies of SPUSHF and SPUSHT (spec/40_sink.md R114, R115). -/
def State.pushField (s : State) (w : WSel) (a : CtxIdx) (n : Nat) : Effect := do
  let q ← s.activeSeq a
  require (decide (n ≤ s.fieldWidth w)) .width
  s.append a q (bitsOf (s.dinField w) n)

/-- Move the read offset of cursor a, which is `c`, up by n bits, after the bounds check
(spec/60_exceptions.md R241). -/
def State.advance (s : State) (a : CtxIdx) (c : Cursor) (n : Nat) : Except FaultKind State := do
  require (decide (c.off + n ≤ c.seq.length)) .bounds
  return s.setCursor a { c with off := c.off + n }

/-- Read n bits of cursor a into DOUT: the bodies of CRDF and CRDT (spec/41_cursor.md R173, R174). -/
def State.readField (s : State) (w : WSel) (a : CtxIdx) (n : Nat) : Effect := do
  let c ← s.validCursor a
  require (decide (n ≤ s.fieldWidth w)) .width
  let t ← s.advance a c n
  return (t.setDout (fromBits (slice c.seq c.off n)), [])

/-- A query of cursor a: DOUT <- value, every context unchanged (spec/41_cursor.md R176 to R178). -/
def State.query (s : State) (a : CtxIdx) (value : Cursor → Nat) : Effect := do
  let c ← s.validCursor a
  return (s.setDout (value c), [])

/-! ### The register read port -/

/-- CFG: NS 7:0, NC 15:8, WORD_W 23:16, VERSION 31:24 (spec/10_state.md R30). -/
def State.cfgReg (s : State) : Word32 :=
  1#8 ++ BitVec.ofNat 8 s.cfg.wordW.bits ++ BitVec.ofNat 8 s.cfg.nc ++ BitVec.ofNat 8 s.cfg.ns

/-- CAPR: CAP_BITS (spec/10_state.md R31). -/
def State.capReg (s : State) : Word32 :=
  BitVec.ofNat 32 s.cfg.capBits

/-- The value of a register read (spec/10_state.md R32). The upper half of DOUT is 0 when WORD_W = 32 (R29). -/
def State.readPort (s : State) (addr : Nat) : Word32 :=
  match addr with
  | 0x00 => s.status
  | 0x04 => s.fcmd
  | 0x08 => s.dout.extractLsb' 0 32
  | 0x0C => match s.cfg.wordW with
    | .w32 => 0
    | .w64 => s.dout.extractLsb' 32 32
  | 0x10 => s.cfgReg
  | 0x14 => s.capReg
  | _ => 0

/-- Answer a register read; it has no side effect on the block (spec/10_state.md R32). -/
def State.answerRead (s : State) (addr : Nat) : State :=
  { s with reply := some (.regValue (s.readPort addr)) }

/-! ### The channel -/

/-- The word and payload of an SRST that decode accepts (spec/60_exceptions.md R248). -/
def isAcceptedSrst (c : Command) : Bool :=
  c.word == 0x0000003F && c.payload.isEmpty

/-- The interaction in progress is complete: it leaves the channel (spec/20_memory.md R64). -/
def State.closeHead (s : State) : State :=
  { s with chan := s.chan.tail }

/-- `closeHead` on the state an outcome carries. -/
def closing (o : Outcome) : Outcome :=
  match o with
  | .next t => .next t.closeHead
  | .fault r => .fault r
  | .refused r => .refused r

/-- The state of an outcome, when it has one. -/
def nextState? (o : Outcome) : Option State :=
  match o with
  | .next t => some t
  | .fault _ => none
  | .refused _ => none

/-- Put a bare table word at the head of the channel: DIN 0 and a payload of zeros of the length it asks for
(log 16). -/
def State.offerWord (s : State) (w : Word32) (payloadLen : Nat) : State :=
  { s with chan := .command { word := w, din := 0, payload := List.replicate payloadLen 0 } :: s.chan }

end Sys2Proof.Machine
end

