-- ==== Sys2Proof/Machine/Control.lean ====
section
/-! DEFINITION. Machine/Control.lean: NOP and SRST (spec/42_control.md). -/

namespace Sys2Proof.Machine

/-- NOP: nothing; the response carries the current STATUS and DOUT (R230). -/
def execNop (s : State) : Outcome :=
  s.perform .nop (.ok (s, []))

/-- SRST: the reset of spec/70_reset_and_hazards.md R271, which a halted block performs too (R231); with a payload
it is ILLEGAL_CMD, and a halted block stays halted (R231, spec/60_exceptions.md R248). -/
def execSrst (s : State) : Outcome :=
  if Instr.srst.legal s.cfg s.payload.length then .next (s.blockReset.respond [])
  else .next (s.raise .illegalCmd)

end Sys2Proof.Machine
end

