-- ==== Sys2Proof/Machine/Cursor.lean ====
section
/-! DEFINITION. Machine/Cursor.lean: the BitCursor commands (spec/41_cursor.md). -/

namespace Sys2Proof.Machine

/-- CNEWB: construct a cursor over the payload's bits; CAPACITY if 8·count > CAP_BITS (R171). -/
def execCnewb (a : CtxIdx) (count : Imm) (s : State) : Outcome :=
  s.perform (.cnewb a count) do
    s.requireCapacity (8 * count.toNat)
    return (s.setCursor a (Cursor.over (bytesToSeq s.payload)), [])

/-- CRDB: read one bit into DOUT (R172). -/
def execCrdb (a : CtxIdx) (s : State) : Outcome :=
  s.perform (.crdb a) do
    let c ← s.validCursor a
    let t ← s.advance a c 1
    return (t.setDout (c.seq.getD c.off false).toNat, [])

/-- CRDF: read N bits into DOUT (R173). -/
def execCrdf (w : WSel) (a : CtxIdx) (s : State) : Outcome :=
  s.perform (.crdf w a) (s.readField w a (s.fieldWidth w))

/-- CRDT: read b bits into DOUT; WIDTH if b > N, before BOUNDS (R174). -/
def execCrdt (w : WSel) (a : CtxIdx) (n : Imm) (s : State) : Outcome :=
  s.perform (.crdt w a n) (s.readField w a n.toNat)

/-- CRDY: output count bytes, re-packed from the read offset; DOUT is unchanged (R175). -/
def execCrdy (a : CtxIdx) (count : Imm) (s : State) : Outcome :=
  s.perform (.crdy a count) do
    let c ← s.validCursor a
    let t ← s.advance a c (8 * count.toNat)
    return (t, readRun c.seq c.off count.toNat)

/-- CREM: the bits not yet consumed (R176). -/
def execCrem (a : CtxIdx) (s : State) : Outcome :=
  s.perform (.crem a) (s.query a fun c => c.seq.length - c.off)

/-- CTOT: the length of the view (R177). -/
def execCtot (a : CtxIdx) (s : State) : Outcome :=
  s.perform (.ctot a) (s.query a fun c => c.seq.length)

/-- CEXH: 1 if the offset is at or past the length, else 0 (R178). -/
def execCexh (a : CtxIdx) (s : State) : Outcome :=
  s.perform (.cexh a) (s.query a fun c => (decide (c.seq.length ≤ c.off)).toNat)

/-- CSPLT: construct cursor b over what cursor a has left; cursor a is unchanged (R179). -/
def execCsplt (a b : CtxIdx) (s : State) : Outcome :=
  s.perform (.csplt a b) do
    let c ← s.validCursor a
    return (s.setCursor b (Cursor.over (c.seq.drop c.off)), [])

/-- CBYTES: output the byte image of the whole view; the cursor is unchanged (R180). -/
def execCbytes (a : CtxIdx) (s : State) : Outcome :=
  s.perform (.cbytes a) do
    let c ← s.validCursor a
    return (s, seqToBytes c.seq)

end Sys2Proof.Machine
end

