-- ==== Sys2Proof/Machine/Sink.lean ====
section
/-! DEFINITION. Machine/Sink.lean: the BitSink commands (spec/40_sink.md). -/

namespace Sys2Proof.Machine

/-- SNEW: create an empty sink, whatever the context held (R111). -/
def execSnew (a : CtxIdx) (s : State) : Outcome :=
  s.perform (.snew a) (.ok (s.setSink a Sink.empty, []))

/-- SPUSHB: append one bit (R112). -/
def execSpushb (a : CtxIdx) (v : Bool) (s : State) : Outcome :=
  s.perform (.spushb a v) do
    let q ← s.activeSeq a
    s.append a q [v]

/-- SOVWR: overwrite the bit at index DIN, compared at full width; the length does not change (R113). -/
def execSovwr (a : CtxIdx) (v : Bool) (s : State) : Outcome :=
  s.perform (.sovwr a v) do
    let q ← s.activeSeq a
    require (decide (s.din < q.length)) .bounds
    return (s.setSeq a (q.set s.din v), [])

/-- SPUSHF: append all N bits of DIN[N−1:0] (R114). -/
def execSpushf (w : WSel) (a : CtxIdx) (s : State) : Outcome :=
  s.perform (.spushf w a) (s.pushField w a (s.fieldWidth w))

/-- SPUSHT: append the low b bits of DIN[N−1:0]; WIDTH if b > N (R115). -/
def execSpusht (w : WSel) (a : CtxIdx) (n : Imm) (s : State) : Outcome :=
  s.perform (.spusht w a n) (s.pushField w a n.toNat)

/-- SPUSHY: append the payload, byte by byte (R116). -/
def execSpushy (a : CtxIdx) (count : Imm) (s : State) : Outcome :=
  s.perform (.spushy a count) do
    let q ← s.activeSeq a
    s.append a q (bytesToSeq s.payload)

/-- SPAD: append zero bits up to the next multiple of 8 (R117). -/
def execSpad (a : CtxIdx) (s : State) : Outcome :=
  s.perform (.spad a) do
    let q ← s.activeSeq a
    return (s.setSeq a (q ++ List.replicate (padCount q.length) false), [])

/-- SAPPS: append the whole of sink b to sink a; sink b is unchanged (R118). -/
def execSapps (a b : CtxIdx) (s : State) : Outcome :=
  s.perform (.sapps a b) do
    let q ← s.activeSeq a
    let r ← s.activeSeq b
    s.append a q r

/-- SAPPC: append the whole view of cursor b, whatever its offset, to sink a; cursor b is unchanged (R119). -/
def execSappc (a b : CtxIdx) (s : State) : Outcome :=
  s.perform (.sappc a b) do
    let q ← s.activeSeq a
    let c ← s.validCursor b
    s.append a q c.seq

/-- SFINC: move the bits of sink a into cursor b, offset 0; the sink is FINALIZED (R120). -/
def execSfinc (a b : CtxIdx) (s : State) : Outcome :=
  s.perform (.sfinc a b) do
    let q ← s.activeSeq a
    return ((s.setCursor b (Cursor.over q)).setSink a Sink.consumed, [])

/-- SFINB: output the byte image of sink a; the sink is FINALIZED (R121). -/
def execSfinb (a : CtxIdx) (s : State) : Outcome :=
  s.perform (.sfinb a) do
    let q ← s.activeSeq a
    return (s.setSink a Sink.consumed, seqToBytes q)

end Sys2Proof.Machine
end

