-- ==== Sys2Proof/Machine/Dispatch.lean ====
section
/-! DEFINITION. Machine/Dispatch.lean: one arm per command (spec/30_encoding.md R86). -/

namespace Sys2Proof.Machine

/-- What the block does with a command that is in progress and decodes to `i`. -/
def exec (i : Instr) (s : State) : Host.Outcome State Fault Refusal :=
  match i with
  | .nop => Sys2Proof.Machine.execNop s
  | .snew a => Sys2Proof.Machine.execSnew a s
  | .spushb a v => Sys2Proof.Machine.execSpushb a v s
  | .sovwr a v => Sys2Proof.Machine.execSovwr a v s
  | .spushf w a => Sys2Proof.Machine.execSpushf w a s
  | .spusht w a n => Sys2Proof.Machine.execSpusht w a n s
  | .spushy a count => Sys2Proof.Machine.execSpushy a count s
  | .spad a => Sys2Proof.Machine.execSpad a s
  | .sapps a b => Sys2Proof.Machine.execSapps a b s
  | .sappc a b => Sys2Proof.Machine.execSappc a b s
  | .sfinc a b => Sys2Proof.Machine.execSfinc a b s
  | .sfinb a => Sys2Proof.Machine.execSfinb a s
  | .cnewb a count => Sys2Proof.Machine.execCnewb a count s
  | .crdb a => Sys2Proof.Machine.execCrdb a s
  | .crdf w a => Sys2Proof.Machine.execCrdf w a s
  | .crdt w a n => Sys2Proof.Machine.execCrdt w a n s
  | .crdy a count => Sys2Proof.Machine.execCrdy a count s
  | .crem a => Sys2Proof.Machine.execCrem a s
  | .ctot a => Sys2Proof.Machine.execCtot a s
  | .cexh a => Sys2Proof.Machine.execCexh a s
  | .csplt a b => Sys2Proof.Machine.execCsplt a b s
  | .cbytes a => Sys2Proof.Machine.execCbytes a s
  | .srst => Sys2Proof.Machine.execSrst s

end Sys2Proof.Machine
end

