-- ==== Sys2Proof/Machine/Step.lean ====
section
/-! DEFINITION. Machine/Step.lean: one step is one interaction of the host with the block (spec/00_scope.md R3,
spec/60_exceptions.md R258). -/

namespace Sys2Proof.Machine

/-- The block's answer to the command `c` in progress, in the check order of spec/60_exceptions.md R246: a halted
block performs only an accepted SRST (R248); a command decode refuses raises ILLEGAL_CMD (R243); any other is
executed. -/
def answerCommand (c : Command) (s : State) : Outcome :=
  if s.halted && !isAcceptedSrst c then .next s.notPerformed
  else
    match c.decode s.cfg with
    | .ok i => exec i s
    | .error _ => .next (s.faultEntry .illegalCmd)

/-- One step: the block completes the next interaction of the host. With none pending it is idle and keeps all its
state (spec/60_exceptions.md R257). -/
def step (s : State) : Host.Outcome State Fault Refusal :=
  match s.chan with
  | [] => .next s
  | .command c :: _ => closing (answerCommand c s)
  | .readReg addr :: _ => closing (.next (s.answerRead addr))
  | .resetInput :: _ => closing (.next s.resetByInput)

/-- `s` with the table word `w` as the next command: DIN 0 and as many zero payload bytes as the word asks for
(log 16). -/
def State.withFetchWord (s : State) (nbits w : Nat) : State :=
  s.offerWord (tableWord nbits w) (payloadNeedOf (tableWord nbits w))

end Sys2Proof.Machine
end

