-- ==== Sys2Proof/Machine/Asm.lean ====
section
/-! DEFINITION. Machine/Asm.lean: the assembler syntax (spec/30_encoding.md R95): the lines, the command each line
encodes, and the text of a line. There are no pseudo-instructions (R96). -/

namespace Sys2Proof.Machine

/-- One line of assembly (R95), with the operands the syntax names. -/
inductive AsmLine
  | nop
  | snew (a : CtxIdx)
  | spushb (a : CtxIdx) (v : Bool)
  | sovwr (a : CtxIdx) (index : DataWord) (v : Bool)
  | spushf (w : WSel) (a : CtxIdx) (value : DataWord)
  | spusht (w : WSel) (a : CtxIdx) (value : DataWord) (n : Imm)
  | spushy (a : CtxIdx) (bytes : List Byte)
  | spad (a : CtxIdx)
  | sapps (a b : CtxIdx)
  | sappc (a b : CtxIdx)
  | sfinc (a b : CtxIdx)
  | sfinb (a : CtxIdx)
  | cnewb (a : CtxIdx) (bytes : List Byte)
  | crdb (a : CtxIdx)
  | crdf (w : WSel) (a : CtxIdx)
  | crdt (w : WSel) (a : CtxIdx) (n : Imm)
  | crdy (a : CtxIdx) (count : Imm)
  | crem (a : CtxIdx)
  | ctot (a : CtxIdx)
  | cexh (a : CtxIdx)
  | csplt (a b : CtxIdx)
  | cbytes (a : CtxIdx)
  | srst
deriving DecidableEq, Repr

/-- The instruction of a line; the length of a byte list gives count (R95). -/
def AsmLine.instr : AsmLine → Instr
  | .nop => .nop
  | .snew a => .snew a
  | .spushb a v => .spushb a v
  | .sovwr a _ v => .sovwr a v
  | .spushf w a _ => .spushf w a
  | .spusht w a _ n => .spusht w a n
  | .spushy a bytes => .spushy a (BitVec.ofNat 16 bytes.length)
  | .spad a => .spad a
  | .sapps a b => .sapps a b
  | .sappc a b => .sappc a b
  | .sfinc a b => .sfinc a b
  | .sfinb a => .sfinb a
  | .cnewb a bytes => .cnewb a (BitVec.ofNat 16 bytes.length)
  | .crdb a => .crdb a
  | .crdf w a => .crdf w a
  | .crdt w a n => .crdt w a n
  | .crdy a count => .crdy a count
  | .crem a => .crem a
  | .ctot a => .ctot a
  | .cexh a => .cexh a
  | .csplt a b => .csplt a b
  | .cbytes a => .cbytes a
  | .srst => .srst

/-- DIN of a line: 0 unless the syntax names it (R95). -/
def AsmLine.din : AsmLine → DataWord
  | .sovwr _ index _ => index
  | .spushf _ _ value | .spusht _ _ value _ => value
  | .nop | .srst | .snew _ | .spushb _ _ | .spushy _ _ | .spad _ | .sapps _ _ | .sappc _ _ | .sfinc _ _
  | .sfinb _ | .cnewb _ _ | .crdb _ | .crdf _ _ | .crdt _ _ _ | .crdy _ _ | .crem _ | .ctot _ | .cexh _
  | .csplt _ _ | .cbytes _ => 0

/-- The payload of a line: its byte list (R95). -/
def AsmLine.payload : AsmLine → List Byte
  | .spushy _ bytes | .cnewb _ bytes => bytes
  | .nop | .srst | .snew _ | .spushb _ _ | .sovwr _ _ _ | .spushf _ _ _ | .spusht _ _ _ _ | .spad _ | .sapps _ _
  | .sappc _ _ | .sfinc _ _ | .sfinb _ | .crdb _ | .crdf _ _ | .crdt _ _ _ | .crdy _ _ | .crem _ | .ctot _
  | .cexh _ | .csplt _ _ | .cbytes _ => []

/-- The command a line encodes (R95). -/
def assemble (l : AsmLine) : Command :=
  { word := encode l.instr, din := l.din, payload := l.payload }

/-! ### The text of a line. Decimal numbers and the spacing are a choice among what R95 allows (DESIGN CHOICE, log 17,
safe). -/

/-- `s<a>`. -/
def sinkName (a : CtxIdx) : String := "s" ++ toString a.toNat

/-- `c<a>`. -/
def cursorName (a : CtxIdx) : String := "c" ++ toString a.toNat

/-- `.8`, `.16`, `.32`, `.W` (R82). -/
def WSel.suffix : WSel → String
  | .w8 => ".8"
  | .w16 => ".16"
  | .w32 => ".32"
  | .wW => ".W"

/-- `[B0, B1, …]`. -/
def byteList (bytes : List Byte) : String :=
  "[" ++ String.intercalate ", " (bytes.map fun b => toString b.toNat) ++ "]"

/-- A bit value, `0` or `1`. -/
def bitText (v : Bool) : String :=
  if v then "1" else "0"

/-- The text of a line (R95). -/
def AsmLine.text : AsmLine → String
  | .nop => "NOP"
  | .snew a => "SNEW " ++ sinkName a
  | .spushb a v => "SPUSHB " ++ sinkName a ++ ", " ++ bitText v
  | .sovwr a index v => "SOVWR " ++ sinkName a ++ ", " ++ toString index.toNat ++ ", " ++ bitText v
  | .spushf w a value => "SPUSHF" ++ WSel.suffix w ++ " " ++ sinkName a ++ ", " ++ toString value.toNat
  | .spusht w a value n =>
    "SPUSHT" ++ WSel.suffix w ++ " " ++ sinkName a ++ ", " ++ toString value.toNat ++ ", " ++ toString n.toNat
  | .spushy a bytes => "SPUSHY " ++ sinkName a ++ ", " ++ byteList bytes
  | .spad a => "SPAD " ++ sinkName a
  | .sapps a b => "SAPPS " ++ sinkName a ++ ", " ++ sinkName b
  | .sappc a b => "SAPPC " ++ sinkName a ++ ", " ++ cursorName b
  | .sfinc a b => "SFINC " ++ sinkName a ++ ", " ++ cursorName b
  | .sfinb a => "SFINB " ++ sinkName a
  | .cnewb a bytes => "CNEWB " ++ cursorName a ++ ", " ++ byteList bytes
  | .crdb a => "CRDB " ++ cursorName a
  | .crdf w a => "CRDF" ++ WSel.suffix w ++ " " ++ cursorName a
  | .crdt w a n => "CRDT" ++ WSel.suffix w ++ " " ++ cursorName a ++ ", " ++ toString n.toNat
  | .crdy a count => "CRDY " ++ cursorName a ++ ", " ++ toString count.toNat
  | .crem a => "CREM " ++ cursorName a
  | .ctot a => "CTOT " ++ cursorName a
  | .cexh a => "CEXH " ++ cursorName a
  | .csplt a b => "CSPLT " ++ cursorName a ++ ", " ++ cursorName b
  | .cbytes a => "CBYTES " ++ cursorName a
  | .srst => "SRST"

end Sys2Proof.Machine
end

