-- ==== Sys2Proof/Safety.lean ====
section
/-! DEFINITION. Safety.lean: the terms claims use: the canonical form of the contexts, the invariant of the block,
and what a command may write. -/

namespace Sys2Proof

/-! ### What a command may write (spec/20_memory.md R67) -/

/-- The sink a command writes, if any (the rules of spec/40_sink.md). SRST writes every context. -/
def Instr.writesSink : Instr → Option CtxIdx
  | .snew a | .spushb a _ | .sovwr a _ | .spushf _ a | .spusht _ a _ | .spushy a _ | .spad a | .sapps a _
  | .sappc a _ | .sfinc a _ | .sfinb a => some a
  | .nop | .srst | .cnewb _ _ | .crdb _ | .crdf _ _ | .crdt _ _ _ | .crdy _ _ | .crem _ | .ctot _ | .cexh _
  | .csplt _ _ | .cbytes _ => none

/-- The cursor a command writes, if any: SFINC and CSPLT their destination, CNEWB and the four reads CTXA. -/
def Instr.writesCursor : Instr → Option CtxIdx
  | .sfinc _ b | .csplt _ b => some b
  | .cnewb a _ | .crdb a | .crdf _ a | .crdt _ a _ | .crdy a _ => some a
  | .nop | .srst | .snew _ | .spushb _ _ | .sovwr _ _ | .spushf _ _ | .spusht _ _ _ | .spushy _ _ | .spad _
  | .sapps _ _ | .sappc _ _ | .sfinb _ | .crem _ | .ctot _ | .cexh _ | .cbytes _ => none

/-- The commands that produce a scalar result, the only ones that write DOUT (spec/10_state.md R29). -/
def Instr.writesDout : Instr → Bool
  | .crdb _ | .crdf _ _ | .crdt _ _ _ | .crem _ | .ctot _ | .cexh _ => true
  | .nop | .srst | .snew _ | .spushb _ _ | .sovwr _ _ | .spushf _ _ | .spusht _ _ _ | .spushy _ _ | .spad _
  | .sapps _ _ | .sappc _ _ | .sfinc _ _ | .sfinb _ | .cnewb _ _ | .crdy _ _ | .csplt _ _ | .cbytes _ => false

/-- The pushes: the commands that append to sink CTXA (spec/40_sink.md R122). -/
def Instr.appends : Instr → Bool
  | .spushb _ _ | .spushf _ _ | .spusht _ _ _ | .spushy _ _ | .spad _ | .sapps _ _ | .sappc _ _ => true
  | .nop | .srst | .snew _ | .sovwr _ _ | .sfinc _ _ | .sfinb _ | .cnewb _ _ | .crdb _ | .crdf _ _ | .crdt _ _ _
  | .crdy _ _ | .crem _ | .ctot _ | .cexh _ | .csplt _ _ | .cbytes _ => false

end Sys2Proof

namespace Sys2Proof.Machine

/-! ### Invariants -/

/-- A sink context is in its canonical form: at most CAP_BITS bits (spec/10_state.md R26), none when FINALIZED (R39). -/
def Sink.wf (cap : Nat) (k : Sink) : Bool :=
  decide (k.seq.length ≤ cap) && (k.st == .active || k.seq.isEmpty)

/-- A cursor context is in its canonical form: at most CAP_BITS bits (R26), the offset within the view (R25), and
empty contents when invalid (R39). -/
def Cursor.wf (cap : Nat) (c : Cursor) : Bool :=
  decide (c.seq.length ≤ cap) && decide (c.off ≤ c.seq.length) &&
    (c.valid || (c.seq.isEmpty && c.off == 0))

/-- The memory of the block, its contexts (spec/20_memory.md R50), is in its one canonical form: NS sinks and NC
cursors, each canonical. -/
def Memory.wf (s : State) : Bool :=
  s.sinks.length == s.cfg.ns && s.cursors.length == s.cfg.nc &&
    s.sinks.all (Sink.wf s.cfg.capBits) && s.cursors.all (Cursor.wf s.cfg.capBits)

/-- The legal values of STATUS: 0, and (code << 4) | 1 for code in 1..5 (R27). -/
def legalStatus : List Word32 :=
  [0x00, 0x11, 0x21, 0x31, 0x41, 0x51]

/-- The invariant of the block. -/
structure State.Inv (s : State) : Prop where
  /-- The parameters are within the bounds of spec/00_scope.md R7 and R8. -/
  config : s.cfg.wf = true
  /-- The contexts are canonical (R25, R26, R39). -/
  memory : Memory.wf s = true
  /-- STATUS has a legal value (R27). -/
  status : s.status ∈ legalStatus
  /-- FCMD is 0 while no fault has occurred (R28, R38). -/
  fcmd : s.halted = false → s.fcmd = 0
  /-- DOUT holds WORD_W bits (R29). -/
  dout : s.dout.toNat < 2 ^ s.cfg.wordW.bits

/-! ### Issuing commands -/

/-- The number of bytes command `i` outputs when it succeeds: ⌈len/8⌉ for SFINB and CBYTES, count for CRDY, none for
any other (spec/30_encoding.md R92). -/
def State.outLength (s : State) : Instr → Nat
  | .sfinb a => match s.sink a with
    | some k => (k.seq.length + 7) / 8
    | none => 0
  | .cbytes a => match s.cursor a with
    | some c => (c.seq.length + 7) / 8
    | none => 0
  | .crdy _ count => count.toNat
  | .nop | .srst | .snew _ | .spushb _ _ | .sovwr _ _ | .spushf _ _ | .spusht _ _ _ | .spushy _ _ | .spad _
  | .sapps _ _ | .sappc _ _ | .sfinc _ _ | .cnewb _ _ | .crdb _ | .crdf _ _ | .crdt _ _ _ | .crem _ | .ctot _
  | .cexh _ | .csplt _ _ => 0

/-- The block performs command `i` now: it is not halted and decode accepts `i` with the payload in progress
(spec/60_exceptions.md R246, R248). -/
def State.accepts (s : State) (i : Instr) : Bool :=
  !s.halted && i.legal s.cfg s.payload.length

/-- `s` with the interaction `e` in progress and nothing after it. -/
def State.offering (s : State) (e : HostEvent) : State :=
  { s with chan := [e] }

/-- What the block does when the host issues command `c` and nothing after it. -/
def issue (c : Command) (s : State) : Outcome :=
  step (s.offering (.command c))

/-- The host issues the commands of a list, each after the response to the one before
(spec/70_reset_and_hazards.md R274). -/
def issueAll : List Command → State → Outcome
  | [], s => .next s
  | c :: cs, s =>
    match issue c s with
    | .next t => issueAll cs t
    | .fault r => .fault r
    | .refused r => .refused r

end Sys2Proof.Machine
end

