-- ==== Sys2Proof/Certificates/Slice0/Obligations.lean ====
section
/-! DEFINITION. Obligations.lean: the statements about BITFLOW-PU, each a rule of spec/ or a law that follows from
several. In the per-command statements `s.accepts i` says that the block is not halted and that decode accepts `i`
with the payload in progress; the next state is written out in full, so that every field it does not name is
unchanged: that is the command's frame. -/

open Sys2Proof Sys2Proof.Machine

/-! ### Control commands -/

/-- R230: NOP is the word 0; it changes nothing and its response carries the current STATUS and DOUT, on a halted
block too; a nonzero field is refused at decode. -/
def Obligations.NopDoesNothing : Prop :=
  encode .nop = 0x00000000 ∧
  (∀ cfg w n, w.extractLsb' 0 6 = 0#6 → w ≠ 0 → decode cfg w n = .error .reservedField) ∧
  (∀ s : State, s.accepts .nop = true →
    exec .nop s = .next { s with reply := some (.response ⟨s.status, s.dout, []⟩) }) ∧
  (∀ s : State, s.halted = true →
    exec .nop s = .next { s with reply := some (.response ⟨s.status, s.dout, []⟩) })

/-- R231: SRST is the word 0x3F; with an empty payload it gives every piece of state its reset value, halted or not,
and the response has status 0, dout 0 and no bytes; with a payload it is ILLEGAL_CMD, and a halted block stays as
it is; another field nonzero is refused at decode. -/
def Obligations.SrstResetsTheBlock : Prop :=
  encode .srst = 0x0000003F ∧
  (∀ cfg w n, w.extractLsb' 0 6 = 0x3F#6 → w ≠ 0x0000003F → decode cfg w n = .error .reservedField) ∧
  (∀ s : State, s.payload = [] →
    exec .srst s = .next { s with sinks := List.replicate s.cfg.ns ⟨.active, []⟩,
                                  cursors := List.replicate s.cfg.nc ⟨false, [], 0⟩,
                                  status := 0, fcmd := 0, dout := 0,
                                  reply := some (.response ⟨0, 0, []⟩) }) ∧
  (∀ s : State, s.payload ≠ [] → s.halted = false → exec .srst s = .next (s.faultEntry .illegalCmd)) ∧
  (∀ s : State, s.payload ≠ [] → s.halted = true →
    exec .srst s = .next { s with reply := some (.response ⟨s.status, s.dout, []⟩) })

/-! ### BitSink commands -/

/-- R111: SNEW makes sink a ACTIVE and empty, whatever it held. -/
def Obligations.SnewCreatesAnEmptySink : Prop :=
  ∀ a : CtxIdx, (encode (.snew a)).toNat = a.toNat * 2 ^ 8 + 0x01 ∧
  ∀ s : State, s.accepts (.snew a) = true →
    exec (.snew a) s = .next { s with sinks := s.sinks.set a.toNat ⟨.active, []⟩,
                                      reply := some (.response ⟨s.status, s.dout, []⟩) }

/-- R112: SPUSHB appends the bit v; CTX_STATE on a FINALIZED sink, CAPACITY on a full one. -/
def Obligations.SpushbAppendsOneBit : Prop :=
  ∀ (a : CtxIdx) (v : Bool), (encode (.spushb a v)).toNat = v.toNat * 2 ^ 16 + a.toNat * 2 ^ 8 + 0x02 ∧
  ∀ (s : State) (q : Bits), s.accepts (.spushb a v) = true →
    (s.sink a = some ⟨.finalized, q⟩ → exec (.spushb a v) s = .next (s.faultEntry .ctxState)) ∧
    (s.sink a = some ⟨.active, q⟩ → s.cfg.capBits < q.length + 1 →
      exec (.spushb a v) s = .next (s.faultEntry .capacity)) ∧
    (s.sink a = some ⟨.active, q⟩ → q.length + 1 ≤ s.cfg.capBits →
      exec (.spushb a v) s = .next { s with sinks := s.sinks.set a.toNat ⟨.active, q ++ [v]⟩,
                                            reply := some (.response ⟨s.status, s.dout, []⟩) })

/-- R113: SOVWR sets bit DIN of sink a to v and leaves the length; BOUNDS when DIN ≥ len, compared in full. -/
def Obligations.SovwrOverwritesOneBit : Prop :=
  ∀ (a : CtxIdx) (v : Bool), (encode (.sovwr a v)).toNat = v.toNat * 2 ^ 16 + a.toNat * 2 ^ 8 + 0x03 ∧
  ∀ (s : State) (q : Bits), s.accepts (.sovwr a v) = true →
    (s.sink a = some ⟨.finalized, q⟩ → exec (.sovwr a v) s = .next (s.faultEntry .ctxState)) ∧
    (s.sink a = some ⟨.active, q⟩ → q.length ≤ s.din → exec (.sovwr a v) s = .next (s.faultEntry .bounds)) ∧
    (s.sink a = some ⟨.active, q⟩ → s.din < q.length →
      ∃ q' : Bits, q'.length = q.length ∧ q'[s.din]? = some v ∧ (∀ j, j ≠ s.din → q'[j]? = q[j]?) ∧
        exec (.sovwr a v) s = .next { s with sinks := s.sinks.set a.toNat ⟨.active, q'⟩,
                                             reply := some (.response ⟨s.status, s.dout, []⟩) })

/-- R114: SPUSHF appends the N bits of DIN[N−1:0]; CTX_STATE on a FINALIZED sink, CAPACITY if len + N > CAP_BITS. -/
def Obligations.SpushfAppendsAField : Prop :=
  ∀ (w : WSel) (a : CtxIdx), (encode (.spushf w a)).toNat = a.toNat * 2 ^ 8 + w.toBits.toNat * 2 ^ 6 + 0x04 ∧
  ∀ (s : State) (q : Bits), s.accepts (.spushf w a) = true →
    (s.sink a = some ⟨.finalized, q⟩ → exec (.spushf w a) s = .next (s.faultEntry .ctxState)) ∧
    (s.sink a = some ⟨.active, q⟩ → s.cfg.capBits < q.length + s.fieldWidth w →
      exec (.spushf w a) s = .next (s.faultEntry .capacity)) ∧
    (s.sink a = some ⟨.active, q⟩ → q.length + s.fieldWidth w ≤ s.cfg.capBits →
      exec (.spushf w a) s =
        .next { s with sinks := s.sinks.set a.toNat ⟨.active, q ++
                          bitsOf (s.current.din.toNat % 2 ^ s.fieldWidth w) (s.fieldWidth w)⟩,
                       reply := some (.response ⟨s.status, s.dout, []⟩) })

/-- R115: SPUSHT appends the low b bits of DIN[N−1:0]; CTX_STATE, then WIDTH if b > N, then CAPACITY. -/
def Obligations.SpushtAppendsLowBits : Prop :=
  ∀ (w : WSel) (a : CtxIdx) (n : Imm),
  (encode (.spusht w a n)).toNat = n.toNat * 2 ^ 16 + a.toNat * 2 ^ 8 + w.toBits.toNat * 2 ^ 6 + 0x05 ∧
  ∀ (s : State) (q : Bits), s.accepts (.spusht w a n) = true →
    (s.sink a = some ⟨.finalized, q⟩ → exec (.spusht w a n) s = .next (s.faultEntry .ctxState)) ∧
    (s.sink a = some ⟨.active, q⟩ → s.fieldWidth w < n.toNat →
      exec (.spusht w a n) s = .next (s.faultEntry .width)) ∧
    (s.sink a = some ⟨.active, q⟩ → n.toNat ≤ s.fieldWidth w → s.cfg.capBits < q.length + n.toNat →
      exec (.spusht w a n) s = .next (s.faultEntry .capacity)) ∧
    (s.sink a = some ⟨.active, q⟩ → n.toNat ≤ s.fieldWidth w → q.length + n.toNat ≤ s.cfg.capBits →
      exec (.spusht w a n) s =
        .next { s with sinks := s.sinks.set a.toNat ⟨.active, q ++
                          bitsOf (s.current.din.toNat % 2 ^ s.fieldWidth w) n.toNat⟩,
                       reply := some (.response ⟨s.status, s.dout, []⟩) })

/-- R116: SPUSHY appends the payload's bytes in order; CTX_STATE, then CAPACITY if len + 8·count > CAP_BITS; a
payload of another length is refused at decode. -/
def Obligations.SpushyAppendsBytes : Prop :=
  ∀ (a : CtxIdx) (count : Imm),
  (encode (.spushy a count)).toNat = count.toNat * 2 ^ 16 + a.toNat * 2 ^ 8 + 0x06 ∧
  (∀ cfg n, a.toNat < cfg.ns → n ≠ count.toNat →
    decode cfg (encode (.spushy a count)) n = .error .payloadLength) ∧
  ∀ (s : State) (q : Bits), s.accepts (.spushy a count) = true →
    (s.sink a = some ⟨.finalized, q⟩ → exec (.spushy a count) s = .next (s.faultEntry .ctxState)) ∧
    (s.sink a = some ⟨.active, q⟩ → s.cfg.capBits < q.length + 8 * count.toNat →
      exec (.spushy a count) s = .next (s.faultEntry .capacity)) ∧
    (s.sink a = some ⟨.active, q⟩ → q.length + 8 * count.toNat ≤ s.cfg.capBits →
      exec (.spushy a count) s =
        .next { s with sinks := s.sinks.set a.toNat ⟨.active, q ++ bytesToSeq s.payload⟩,
                       reply := some (.response ⟨s.status, s.dout, []⟩) })

/-- From R117: SPAD appends the 0 to 7 zero bits that make the length a multiple of 8; CTX_STATE on a FINALIZED sink; a
second SPAD appends nothing. That it cannot pass CAP_BITS is the spec's own inference in R117 ("so len + p =
8·⌈len/8⌉ ≤ CAP_BITS"), stated under the invariant. -/
def Obligations.SpadPadsToAByte : Prop :=
  ∀ a : CtxIdx, (encode (.spad a)).toNat = a.toNat * 2 ^ 8 + 0x07 ∧
  ∀ (s : State) (q : Bits), s.accepts (.spad a) = true →
    (s.sink a = some ⟨.finalized, q⟩ → exec (.spad a) s = .next (s.faultEntry .ctxState)) ∧
    (s.sink a = some ⟨.active, q⟩ →
      ∃ p, p < 8 ∧ (q.length + p) % 8 = 0 ∧ (q.length % 8 = 0 → p = 0) ∧
        (s.Inv → q.length + p ≤ s.cfg.capBits) ∧
        exec (.spad a) s =
          .next { s with sinks := s.sinks.set a.toNat ⟨.active, q ++ List.replicate p false⟩,
                         reply := some (.response ⟨s.status, s.dout, []⟩) })

/-- R118: SAPPS appends the whole of sink b to sink a and leaves sink b; CTX_STATE if either is FINALIZED, CAPACITY
if the sum exceeds CAP_BITS; a = b is refused at decode. -/
def Obligations.SappsAppendsASink : Prop :=
  ∀ a b : CtxIdx, (encode (.sapps a b)).toNat = b.toNat * 2 ^ 12 + a.toNat * 2 ^ 8 + 0x08 ∧
  (∀ cfg n, a.toNat < cfg.ns → decode cfg (encode (.sapps a a)) n = .error .selfAlias) ∧
  ∀ (s : State) (q r : Bits), s.accepts (.sapps a b) = true →
    (s.sink a = some ⟨.finalized, q⟩ → exec (.sapps a b) s = .next (s.faultEntry .ctxState)) ∧
    (s.sink a = some ⟨.active, q⟩ → s.sink b = some ⟨.finalized, r⟩ →
      exec (.sapps a b) s = .next (s.faultEntry .ctxState)) ∧
    (s.sink a = some ⟨.active, q⟩ → s.sink b = some ⟨.active, r⟩ → s.cfg.capBits < q.length + r.length →
      exec (.sapps a b) s = .next (s.faultEntry .capacity)) ∧
    (s.sink a = some ⟨.active, q⟩ → s.sink b = some ⟨.active, r⟩ → q.length + r.length ≤ s.cfg.capBits →
      exec (.sapps a b) s = .next { s with sinks := s.sinks.set a.toNat ⟨.active, q ++ r⟩,
                                           reply := some (.response ⟨s.status, s.dout, []⟩) })

/-- R119: SAPPC appends the whole view of cursor b, whatever its offset, to sink a and leaves cursor b; CTX_STATE if
the sink is FINALIZED or the cursor invalid, CAPACITY if the sum exceeds CAP_BITS. -/
def Obligations.SappcAppendsAWholeView : Prop :=
  ∀ a b : CtxIdx, (encode (.sappc a b)).toNat = b.toNat * 2 ^ 12 + a.toNat * 2 ^ 8 + 0x09 ∧
  ∀ (s : State) (q : Bits) (c : Cursor), s.accepts (.sappc a b) = true →
    (s.sink a = some ⟨.finalized, q⟩ → exec (.sappc a b) s = .next (s.faultEntry .ctxState)) ∧
    (s.sink a = some ⟨.active, q⟩ → s.cursor b = some c → c.valid = false →
      exec (.sappc a b) s = .next (s.faultEntry .ctxState)) ∧
    (s.sink a = some ⟨.active, q⟩ → s.cursor b = some c → c.valid = true →
      s.cfg.capBits < q.length + c.seq.length → exec (.sappc a b) s = .next (s.faultEntry .capacity)) ∧
    (s.sink a = some ⟨.active, q⟩ → s.cursor b = some c → c.valid = true →
      q.length + c.seq.length ≤ s.cfg.capBits →
      exec (.sappc a b) s = .next { s with sinks := s.sinks.set a.toNat ⟨.active, q ++ c.seq⟩,
                                           reply := some (.response ⟨s.status, s.dout, []⟩) })

/-- R120: SFINC gives cursor b exactly the bits of sink a, offset 0, and leaves the sink FINALIZED and empty;
CTX_STATE if it is FINALIZED already. -/
def Obligations.SfincFinalizesToACursor : Prop :=
  ∀ a b : CtxIdx, (encode (.sfinc a b)).toNat = b.toNat * 2 ^ 12 + a.toNat * 2 ^ 8 + 0x0A ∧
  ∀ (s : State) (q : Bits), s.accepts (.sfinc a b) = true →
    (s.sink a = some ⟨.finalized, q⟩ → exec (.sfinc a b) s = .next (s.faultEntry .ctxState)) ∧
    (s.sink a = some ⟨.active, q⟩ →
      exec (.sfinc a b) s = .next { s with cursors := s.cursors.set b.toNat ⟨true, q, 0⟩,
                                           sinks := s.sinks.set a.toNat ⟨.finalized, []⟩,
                                           reply := some (.response ⟨s.status, s.dout, []⟩) })

/-- R121: SFINB outputs the byte image of sink a and leaves it FINALIZED and empty; CTX_STATE if it is FINALIZED
already. -/
def Obligations.SfinbFinalizesToBytes : Prop :=
  ∀ a : CtxIdx, (encode (.sfinb a)).toNat = a.toNat * 2 ^ 8 + 0x0B ∧
  ∀ (s : State) (q : Bits), s.accepts (.sfinb a) = true →
    (s.sink a = some ⟨.finalized, q⟩ → exec (.sfinb a) s = .next (s.faultEntry .ctxState)) ∧
    (s.sink a = some ⟨.active, q⟩ →
      exec (.sfinb a) s = .next { s with sinks := s.sinks.set a.toNat ⟨.finalized, []⟩,
                                         reply := some (.response ⟨s.status, s.dout, seqToBytes q⟩) })

/-! ### BitCursor commands -/

/-- R171: CNEWB constructs cursor a over the bits of the payload, offset 0, whatever the context held; CAPACITY if
8·count > CAP_BITS; a payload of another length is refused at decode. -/
def Obligations.CnewbConstructsACursor : Prop :=
  ∀ (a : CtxIdx) (count : Imm),
  (encode (.cnewb a count)).toNat = count.toNat * 2 ^ 16 + a.toNat * 2 ^ 8 + 0x10 ∧
  (∀ cfg n, a.toNat < cfg.nc → n ≠ count.toNat →
    decode cfg (encode (.cnewb a count)) n = .error .payloadLength) ∧
  ∀ s : State, s.accepts (.cnewb a count) = true →
    (s.cfg.capBits < 8 * count.toNat → exec (.cnewb a count) s = .next (s.faultEntry .capacity)) ∧
    (8 * count.toNat ≤ s.cfg.capBits →
      exec (.cnewb a count) s = .next { s with cursors := s.cursors.set a.toNat ⟨true, bytesToSeq s.payload, 0⟩,
                                               reply := some (.response ⟨s.status, s.dout, []⟩) })

/-- R172: CRDB puts the bit at the offset in DOUT and moves the offset up by 1; CTX_STATE if invalid, BOUNDS at the
end of the view. -/
def Obligations.CrdbReadsOneBit : Prop :=
  ∀ a : CtxIdx, (encode (.crdb a)).toNat = a.toNat * 2 ^ 8 + 0x11 ∧
  ∀ (s : State) (c : Cursor), s.accepts (.crdb a) = true → s.cursor a = some c →
    (c.valid = false → exec (.crdb a) s = .next (s.faultEntry .ctxState)) ∧
    (c.valid = true → c.seq.length < c.off + 1 → exec (.crdb a) s = .next (s.faultEntry .bounds)) ∧
    (∀ v, c.valid = true → c.seq[c.off]? = some v →
      exec (.crdb a) s = .next { s with cursors := s.cursors.set a.toNat ⟨true, c.seq, c.off + 1⟩,
                                        dout := if v then 1 else 0,
                                        reply := some (.response ⟨s.status, if v then 1 else 0, []⟩) })

/-- R173: CRDF puts the N bits from the offset on in DOUT, zero-extended, and moves the offset up by N; CTX_STATE if
invalid, BOUNDS if off + N > len, and then nothing is read. -/
def Obligations.CrdfReadsAField : Prop :=
  ∀ (w : WSel) (a : CtxIdx), (encode (.crdf w a)).toNat = a.toNat * 2 ^ 8 + w.toBits.toNat * 2 ^ 6 + 0x12 ∧
  ∀ (s : State) (c : Cursor), s.accepts (.crdf w a) = true → s.cursor a = some c →
    (c.valid = false → exec (.crdf w a) s = .next (s.faultEntry .ctxState)) ∧
    (c.valid = true → c.seq.length < c.off + s.fieldWidth w →
      exec (.crdf w a) s = .next (s.faultEntry .bounds)) ∧
    (c.valid = true → c.off + s.fieldWidth w ≤ c.seq.length →
      ∃ d : DataWord, d.toNat = fromBits (slice c.seq c.off (s.fieldWidth w)) ∧
        exec (.crdf w a) s = .next { s with cursors := s.cursors.set a.toNat ⟨true, c.seq, c.off + s.fieldWidth w⟩,
                                            dout := d, reply := some (.response ⟨s.status, d, []⟩) })

/-- R174: CRDT puts the b bits from the offset on in DOUT, zero-extended, and moves the offset up by b; CTX_STATE,
then WIDTH if b > N, then BOUNDS if off + b > len; b = 0 sets DOUT to 0. -/
def Obligations.CrdtReadsLowBits : Prop :=
  ∀ (w : WSel) (a : CtxIdx) (n : Imm),
  (encode (.crdt w a n)).toNat = n.toNat * 2 ^ 16 + a.toNat * 2 ^ 8 + w.toBits.toNat * 2 ^ 6 + 0x13 ∧
  ∀ (s : State) (c : Cursor), s.accepts (.crdt w a n) = true → s.cursor a = some c →
    (c.valid = false → exec (.crdt w a n) s = .next (s.faultEntry .ctxState)) ∧
    (c.valid = true → s.fieldWidth w < n.toNat → exec (.crdt w a n) s = .next (s.faultEntry .width)) ∧
    (c.valid = true → n.toNat ≤ s.fieldWidth w → c.seq.length < c.off + n.toNat →
      exec (.crdt w a n) s = .next (s.faultEntry .bounds)) ∧
    (c.valid = true → n.toNat ≤ s.fieldWidth w → c.off + n.toNat ≤ c.seq.length →
      ∃ d : DataWord, d.toNat = fromBits (slice c.seq c.off n.toNat) ∧ (n = 0 → d = 0) ∧
        exec (.crdt w a n) s = .next { s with cursors := s.cursors.set a.toNat ⟨true, c.seq, c.off + n.toNat⟩,
                                              dout := d, reply := some (.response ⟨s.status, d, []⟩) })

/-- R175: CRDY outputs count bytes, byte j the 8 bits from off + 8j on, moves the offset up by 8·count and leaves
DOUT; CTX_STATE if invalid, BOUNDS if off + 8·count > len. -/
def Obligations.CrdyReadsBytes : Prop :=
  ∀ (a : CtxIdx) (count : Imm),
  (encode (.crdy a count)).toNat = count.toNat * 2 ^ 16 + a.toNat * 2 ^ 8 + 0x14 ∧
  ∀ (s : State) (c : Cursor), s.accepts (.crdy a count) = true → s.cursor a = some c →
    (c.valid = false → exec (.crdy a count) s = .next (s.faultEntry .ctxState)) ∧
    (c.valid = true → c.seq.length < c.off + 8 * count.toNat →
      exec (.crdy a count) s = .next (s.faultEntry .bounds)) ∧
    (c.valid = true → c.off + 8 * count.toNat ≤ c.seq.length →
      ∃ out : List Byte, out.length = count.toNat ∧
        (∀ j, j < count.toNat → out[j]?.map BitVec.toNat = some (fromBits (slice c.seq (c.off + 8 * j) 8))) ∧
        exec (.crdy a count) s =
          .next { s with cursors := s.cursors.set a.toNat ⟨true, c.seq, c.off + 8 * count.toNat⟩,
                         reply := some (.response ⟨s.status, s.dout, out⟩) })

/-- R176: CREM puts len − off in DOUT and leaves every context; CTX_STATE if invalid. The invariant bounds the
length below 2^32, so that it fits DOUT. -/
def Obligations.CremReturnsTheRemainder : Prop :=
  ∀ a : CtxIdx, (encode (.crem a)).toNat = a.toNat * 2 ^ 8 + 0x15 ∧
  ∀ (s : State) (c : Cursor), s.accepts (.crem a) = true → s.cursor a = some c →
    (c.valid = false → exec (.crem a) s = .next (s.faultEntry .ctxState)) ∧
    (c.valid = true → s.Inv →
      ∃ d : DataWord, d.toNat + c.off = c.seq.length ∧
        exec (.crem a) s = .next { s with dout := d, reply := some (.response ⟨s.status, d, []⟩) })

/-- R177: CTOT puts the length of the view in DOUT and leaves every context; CTX_STATE if invalid. -/
def Obligations.CtotReturnsTheTotal : Prop :=
  ∀ a : CtxIdx, (encode (.ctot a)).toNat = a.toNat * 2 ^ 8 + 0x16 ∧
  ∀ (s : State) (c : Cursor), s.accepts (.ctot a) = true → s.cursor a = some c →
    (c.valid = false → exec (.ctot a) s = .next (s.faultEntry .ctxState)) ∧
    (c.valid = true → s.Inv →
      ∃ d : DataWord, d.toNat = c.seq.length ∧
        exec (.ctot a) s = .next { s with dout := d, reply := some (.response ⟨s.status, d, []⟩) })

/-- R178: CEXH puts 1 in DOUT if off ≥ len and 0 otherwise, and leaves every context; CTX_STATE if invalid. -/
def Obligations.CexhTestsExhaustion : Prop :=
  ∀ a : CtxIdx, (encode (.cexh a)).toNat = a.toNat * 2 ^ 8 + 0x17 ∧
  ∀ (s : State) (c : Cursor), s.accepts (.cexh a) = true → s.cursor a = some c →
    (c.valid = false → exec (.cexh a) s = .next (s.faultEntry .ctxState)) ∧
    (c.valid = true →
      exec (.cexh a) s = .next { s with dout := if c.seq.length ≤ c.off then 1 else 0,
                                        reply := some (.response ⟨s.status, if c.seq.length ≤ c.off then 1 else 0, []⟩) })

/-- R179: CSPLT constructs cursor b over what cursor a has left, offset 0, whatever b held, and leaves cursor a;
CTX_STATE if a is invalid; a = b is refused at decode. -/
def Obligations.CspltSplitsTheRemainder : Prop :=
  ∀ a b : CtxIdx, (encode (.csplt a b)).toNat = b.toNat * 2 ^ 12 + a.toNat * 2 ^ 8 + 0x18 ∧
  (∀ cfg n, a.toNat < cfg.nc → decode cfg (encode (.csplt a a)) n = .error .selfAlias) ∧
  ∀ (s : State) (c : Cursor), s.accepts (.csplt a b) = true → s.cursor a = some c →
    (c.valid = false → exec (.csplt a b) s = .next (s.faultEntry .ctxState)) ∧
    (c.valid = true →
      exec (.csplt a b) s = .next { s with cursors := s.cursors.set b.toNat ⟨true, c.seq.drop c.off, 0⟩,
                                           reply := some (.response ⟨s.status, s.dout, []⟩) })

/-- R180: CBYTES outputs the byte image of the whole view, whatever the offset, and leaves the cursor and DOUT;
CTX_STATE if invalid. -/
def Obligations.CbytesExtractsTheImage : Prop :=
  ∀ a : CtxIdx, (encode (.cbytes a)).toNat = a.toNat * 2 ^ 8 + 0x19 ∧
  ∀ (s : State) (c : Cursor), s.accepts (.cbytes a) = true → s.cursor a = some c →
    (c.valid = false → exec (.cbytes a) s = .next (s.faultEntry .ctxState)) ∧
    (c.valid = true →
      exec (.cbytes a) s = .next { s with reply := some (.response ⟨s.status, s.dout, seqToBytes c.seq⟩) })

/-! ### Faults, halt, reset and the register port -/

/-- R247, R240: fault entry writes STATUS, FCMD and the response and nothing else; HALT and fault_o are then 1, and
ERRCODE is the code of the kind. -/
def Obligations.FaultEntryIsPrecise : Prop :=
  ∀ (s : State) (k : FaultKind),
    k.code = (match k with
      | .bounds => 1#4 | .width => 2#4 | .illegalCmd => 3#4 | .ctxState => 4#4 | .capacity => 5#4) ∧
    (s.faultEntry k).halted = true ∧ (s.faultEntry k).faultO = true ∧ (s.faultEntry k).errCode = k.code ∧
    (s.faultEntry k).status.toNat = k.code.toNat * 16 + 1 ∧
    s.faultEntry k = { s with status := (s.faultEntry k).status, fcmd := s.cmdWord,
                              reply := some (.response ⟨(s.faultEntry k).status, s.dout, []⟩) }

/-- R248: while halted, a command that is not an accepted SRST changes no state and is answered with STATUS, DOUT
and no bytes; an accepted SRST is performed; register reads work as usual. -/
def Obligations.HaltedBlockPerformsNothing : Prop :=
  ∀ (s : State) (e : HostEvent) (rest : List HostEvent), s.halted = true → s.chan = e :: rest →
    (∀ c, e = .command c → ¬(c.word = 0x0000003F ∧ c.payload = []) →
      step s = .next { s with chan := rest, reply := some (.response ⟨s.status, s.dout, []⟩) }) ∧
    (∀ c, e = .command c → c.word = 0x0000003F → c.payload = [] →
      step s = .next { State.resetFor s.cfg with chan := rest, reply := some (.response ⟨0, 0, []⟩) }) ∧
    (∀ addr, e = .readReg addr →
      step s = .next { s with chan := rest, reply := some (.regValue (s.readPort addr)) })

/-- R249: a halted block leaves the halt only by a reset, the reset input or an SRST that decode accepts, and by
either of them; it then has every context, STATUS, FCMD and DOUT at the reset value. -/
def Obligations.OnlyAResetLeavesTheHalt : Prop :=
  ∀ s t : State, s.halted = true → step s = .next t →
    (t.halted = false ↔
      (s.chan.head? = some .resetInput ∨
        ∃ c, s.chan.head? = some (.command c) ∧ c.word = 0x0000003F ∧ c.payload = [])) ∧
    (t.halted = false → t.sinks = List.replicate s.cfg.ns ⟨.active, []⟩ ∧
      t.cursors = List.replicate s.cfg.nc ⟨false, [], 0⟩ ∧ t.status = 0 ∧ t.fcmd = 0 ∧ t.dout = 0)

/-- From R30, R31 and R32: what each address of the register port reads as; a read changes only the reply. That an
address is a natural number, so that every larger one reads 0 too, is the model's choice (log 8), and so are the
form of the reply (log 4) and the read as a step of its own (log 7). -/
def Obligations.RegisterReadPort : Prop :=
  ∀ (s : State) (addr : Nat) (rest : List HostEvent), s.chan = .readReg addr :: rest →
    step s = .next { s with chan := rest, reply := some (.regValue (s.readPort addr)) } ∧
    s.readPort 0x00 = s.status ∧ s.readPort 0x04 = s.fcmd ∧
    (s.readPort 0x08).toNat = s.dout.toNat % 2 ^ 32 ∧
    (s.readPort 0x0C).toNat = (if s.cfg.wordW = .w32 then 0 else s.dout.toNat / 2 ^ 32) ∧
    (s.cfg.wf = true → (s.readPort 0x10).toNat =
      s.cfg.ns + s.cfg.nc * 2 ^ 8 + s.cfg.wordW.bits * 2 ^ 16 + 1 * 2 ^ 24) ∧
    (s.cfg.wf = true → (s.readPort 0x14).toNat = s.cfg.capBits) ∧
    (addr ∉ [0x00, 0x04, 0x08, 0x0C, 0x10, 0x14] → s.readPort addr = 0)

/-- From R271: the reset input sets every piece of state to its reset value: sinks ACTIVE and empty, cursors invalid and
empty, STATUS, FCMD and DOUT zero, fault_o low. The reply resetDone is the model's choice (log 4). -/
def Obligations.ResetInputResetsTheBlock : Prop :=
  ∀ (s : State) (rest : List HostEvent), s.chan = .resetInput :: rest →
    ∃ t, step s = .next t ∧ t.cfg = s.cfg ∧ t.chan = rest ∧ t.reply = some .resetDone ∧
      t.sinks = List.replicate s.cfg.ns ⟨.active, []⟩ ∧ t.cursors = List.replicate s.cfg.nc ⟨false, [], 0⟩ ∧
      t.status = 0 ∧ t.fcmd = 0 ∧ t.dout = 0 ∧ t.faultO = false

/-- R38: the reset value of every piece of state, for every configuration; the machine's reset state is one of
them. That the configuration of State.reset is the one of spec/95_test_vectors.md is the model's choice (log 2). -/
def Obligations.ResetValues : Prop :=
  (∀ (cfg : Config) (a : CtxIdx),
    (a.toNat < cfg.ns → (State.resetFor cfg).sink a = some ⟨.active, []⟩) ∧
    (a.toNat < cfg.nc → (State.resetFor cfg).cursor a = some ⟨false, [], 0⟩) ∧
    (State.resetFor cfg).status = 0 ∧ (State.resetFor cfg).fcmd = 0 ∧ (State.resetFor cfg).dout = 0 ∧
    (State.resetFor cfg).faultO = false ∧ (State.resetFor cfg).halted = false) ∧
  State.reset = State.resetFor State.reset.cfg

/-! ### Steps -/

/-- A step runs the decoded command: when the command at the head of the channel decodes to `i`, the step is `exec i`
and the removal of that head. It is so on a halted block too, which by R248 decodes nothing, because each meaning
checks the halt itself, the model's own inference (log 6). A running block answers a command that decode refuses with
ILLEGAL_CMD (R243), and FCMD is then the command word (R247); with no interaction pending it is idle and keeps all its
state (R257). The channel is the model's (log 3). -/
def Obligations.StepRunsTheDecodedCommand : Prop :=
  (∀ (s : State) (c : Command) (rest : List HostEvent) (i : Instr),
    s.chan = .command c :: rest → decode s.cfg c.word c.payload.length = .ok i →
    ∃ t, exec i s = .next t ∧ step s = .next { t with chan := rest }) ∧
  (∀ (s : State) (c : Command) (rest : List HostEvent) (e : DecodeError),
    s.chan = .command c :: rest → s.halted = false → decode s.cfg c.word c.payload.length = .error e →
    step s = .next { s.faultEntry .illegalCmd with chan := rest } ∧ (s.faultEntry .illegalCmd).fcmd = c.word) ∧
  (∀ s : State, s.chan = [] → step s = .next s)

/-- From R92 and R279: every interaction is answered by exactly one step, which never stops the machine, and the
parameters do not change. That this holds of register reads and the reset input too, that each is one step and leaves
a reply, and that the parameters are a constant part of the state, are the model's choices (log 1, log 4, log 7 and,
for the answer that always comes, log 11). The response to a command carries STATUS and DOUT as they are after it, and
as many output bytes as R92 says: ⌈len/8⌉ for a successful SFINB or CBYTES, count for a successful CRDY and none
otherwise, so none when the block is halted after the command. -/
def Obligations.EveryCommandIsAnswered : Prop :=
  ∀ s : State, ∃ t, step s = .next t ∧ t.cfg = s.cfg ∧ t.chan = s.chan.tail ∧
    (s.chan ≠ [] → t.reply ≠ none) ∧
    ∀ (c : Command), s.chan.head? = some (.command c) →
      ∃ out : List Byte, t.reply = some (.response ⟨t.status, t.dout, out⟩) ∧
        (t.halted = true → out = []) ∧
        (t.halted = false → ∃ i, decode s.cfg c.word c.payload.length = .ok i ∧ out.length = s.outLength i)

/-- The invariant of the block holds after reset, for every configuration within the bounds of R7 and R8. -/
def Obligations.ResetSatisfiesTheInvariant : Prop :=
  ∀ cfg : Config, cfg.wf = true → (State.resetFor cfg).Inv

/-- Every step keeps the invariant: the contexts stay canonical (R39), no longer than CAP_BITS (R26) and with the
offset within the view (R25), STATUS keeps a legal value (R27), FCMD stays 0 until a fault (R28) and DOUT holds
WORD_W bits (R29). -/
def Obligations.EveryStepKeepsTheInvariant : Prop :=
  ∀ s t : State, s.Inv → step s = .next t → t.Inv

/-! ### Encoding -/

/-- Decode inverts encode: every well-formed instruction with the payload length it needs is what its word decodes
to, at every value of every operand. -/
def Obligations.DecodeInvertsEncode : Prop :=
  ∀ (cfg : Config) (i : Instr), i.wf cfg = true → decode cfg (encode i) i.payloadNeed = .ok i

/-- Decode accepts only encodings: a word it accepts is the word of the instruction it answers, which is well formed
and comes with the payload length it needs. So no reserved bit is ever ignored (R87). -/
def Obligations.AcceptedWordsAreEncodings : Prop :=
  ∀ (cfg : Config) (w : Word32) (n : Nat) (i : Instr), decode cfg w n = .ok i →
    encode i = w ∧ i.wf cfg = true ∧ n = i.payloadNeed

/-- R88: the OP values 0x0C to 0x0F and 0x1A to 0x3E are undefined, whatever the other fields and the payload hold,
and raise ILLEGAL_CMD on a running block; every other OP value is the OP of some instruction. -/
def Obligations.UndefinedOpcodesAreRefused : Prop :=
  (∀ (cfg : Config) (w : Word32) (n : Nat),
    decode cfg w n = .error .undefinedOp ↔
      (0x0C ≤ w.toNat % 64 ∧ w.toNat % 64 ≤ 0x0F) ∨ (0x1A ≤ w.toNat % 64 ∧ w.toNat % 64 ≤ 0x3E)) ∧
  (∀ (s : State) (c : Command), s.halted = false →
    (0x0C ≤ c.word.toNat % 64 ∧ c.word.toNat % 64 ≤ 0x0F) ∨ (0x1A ≤ c.word.toNat % 64 ∧ c.word.toNat % 64 ≤ 0x3E) →
    ∃ t, issue c s = .next t ∧ t.status = 0x00000031 ∧ t.fcmd = c.word ∧
      t.sinks = s.sinks ∧ t.cursors = s.cursors ∧ t.dout = s.dout)

/-- Words spelled out in spec/40_sink.md to 42_control.md decode to the commands they stand for, and the word
0x0000003E, of an undefined OP (R88), to none. The configuration, with NS = NC = 4, and the payload that a bare word
comes with are the model's choices (log 2, log 16). -/
def Obligations.SpecWordsDecode : Prop :=
  decodeTableWord 32 0x00000000 = some .nop ∧ decodeTableWord 32 0x00010002 = some (.spushb 0 true) ∧
  decodeTableWord 32 0x00010003 = some (.sovwr 0 true) ∧ decodeTableWord 32 0x00000044 = some (.spushf .w16 0) ∧
  decodeTableWord 32 0x000C0045 = some (.spusht .w16 0 12) ∧ decodeTableWord 32 0x00020006 = some (.spushy 0 2) ∧
  decodeTableWord 32 0x00001008 = some (.sapps 0 1) ∧ decodeTableWord 32 0x00000109 = some (.sappc 1 0) ∧
  decodeTableWord 32 0x0000100A = some (.sfinc 0 1) ∧ decodeTableWord 32 0x000000D2 = some (.crdf .wW 0) ∧
  decodeTableWord 32 0x00050013 = some (.crdt .w8 0 5) ∧ decodeTableWord 32 0x00001018 = some (.csplt 0 1) ∧
  decodeTableWord 32 0x0000003F = some .srst ∧ decodeTableWord 32 0x0000003E = none

/-- From R95: a line of assembly whose operands are in range encodes a command that decodes to the line's instruction;
fields the syntax does not name encode as 0 (the word is the encoding of the instruction), and DIN is 0 unless the
syntax names it. -/
def Obligations.AssembledLinesDecode : Prop :=
  ∀ (cfg : Config) (l : AsmLine), l.instr.wf cfg = true → l.payload.length < 2 ^ 16 →
    (assemble l).decode cfg = .ok l.instr ∧
    ((assemble l).din ≠ 0 → (∃ a i v, l = .sovwr a i v) ∨ (∃ w a v, l = .spushf w a v) ∨
      ∃ w a v n, l = .spusht w a v n)

/-! ### Whole-machine rules -/

/-- R67: a command other than SRST changes only the contexts its rule names as written, the parameters and the
channel never. -/
def Obligations.ContextsAreIndependent : Prop :=
  ∀ (i : Instr) (s t : State), i ≠ .srst → exec i s = .next t →
    t.cfg = s.cfg ∧ t.chan = s.chan ∧ t.sinks.length = s.sinks.length ∧ t.cursors.length = s.cursors.length ∧
    (∀ x, i.writesSink ≠ some x → t.sink x = s.sink x) ∧
    (∀ x, i.writesCursor ≠ some x → t.cursor x = s.cursor x)

/-- R29: only CRDB, CRDF, CRDT, CREM, CTOT and CEXH change DOUT, beside SRST, and none does when it faults. -/
def Obligations.OnlyScalarResultsWriteDout : Prop :=
  ∀ (i : Instr) (s t : State), i ≠ .srst → exec i s = .next t →
    (i.writesDout = false ∨ t.halted = true) → t.dout = s.dout

/-- R60, R36: a command other than SRST leaves STATUS and FCMD, or it is a fault entry that writes nothing else, and
that only on a block that was running (R250). -/
def Obligations.CommandsAreAtomic : Prop :=
  ∀ (i : Instr) (s t : State), i ≠ .srst → exec i s = .next t →
    (t.status = s.status ∧ t.fcmd = s.fcmd) ∨ (s.halted = false ∧ ∃ k, t = s.faultEntry k)

/-- R241 to R245: which command can raise which fault, in a state that meets the invariant, once decode has accepted
it: BOUNDS the reads and SOVWR; WIDTH SPUSHT and CRDT; CAPACITY the pushes but SPAD, and CNEWB; CTX_STATE every command
that uses a context's contents; ILLEGAL_CMD none. -/
def Obligations.FaultKindsByCommand : Prop :=
  ∀ (i : Instr) (s : State) (k : FaultKind), s.Inv → s.accepts i = true → exec i s = .next (s.faultEntry k) →
    match k with
    | .bounds => (∃ a v, i = .sovwr a v) ∨ (∃ a, i = .crdb a) ∨ (∃ w a, i = .crdf w a) ∨
        (∃ w a n, i = .crdt w a n) ∨ ∃ a n, i = .crdy a n
    | .width => (∃ w a n, i = .spusht w a n) ∨ ∃ w a n, i = .crdt w a n
    | .illegalCmd => False
    | .ctxState => i ≠ .nop ∧ i ≠ .srst ∧ (∀ a, i ≠ .snew a) ∧ ∀ a n, i ≠ .cnewb a n
    | .capacity => (i.appends = true ∧ ∀ a, i ≠ .spad a) ∨ ∃ a n, i = .cnewb a n

/-- R122, R23: a push leaves the old sequence of its ACTIVE sink a beginning of the new one, and the sink ACTIVE;
SOVWR keeps the length and changes at most the bit at DIN. -/
def Obligations.SinksGrowMonotonically : Prop :=
  ∀ (i : Instr) (s t : State) (a : CtxIdx) (q : Bits), i.writesSink = some a → exec i s = .next t →
    s.sink a = some ⟨.active, q⟩ →
    (i.appends = true → ∃ r, t.sink a = some ⟨.active, q ++ r⟩) ∧
    (∀ v, i = .sovwr a v → ∃ q', t.sink a = some ⟨.active, q'⟩ ∧ q'.length = q.length ∧
      ∀ j, j ≠ s.din → q'[j]? = q[j]?)

/-- R25: a command other than SRST and those that construct a cursor in context x leaves a valid cursor valid, its
view unchanged, and its offset at least what it was and within the view if it was. -/
def Obligations.CursorsAdvanceMonotonically : Prop :=
  ∀ (i : Instr) (s t : State) (x : CtxIdx) (c : Cursor), i ≠ .srst → (∀ n, i ≠ .cnewb x n) →
    (∀ a, i ≠ .sfinc a x) → (∀ a, i ≠ .csplt a x) → exec i s = .next t →
    s.cursor x = some c → c.valid = true → c.off ≤ c.seq.length →
    ∃ off', t.cursor x = some ⟨true, c.seq, off'⟩ ∧ c.off ≤ off' ∧ off' ≤ c.seq.length

/-- R183: on an exhausted cursor CEXH returns 1, every read of at least one bit raises BOUNDS, and CRDT of no bits
and CRDY of no bytes succeed and leave the cursor. A CRDT with b > N raises WIDTH first (R174), so b ≤ N here. -/
def Obligations.ExhaustedCursorsRefuseReads : Prop :=
  ∀ (s : State) (a : CtxIdx) (c : Cursor), s.halted = false → s.payload = [] → a.toNat < s.cfg.nc →
    s.cursor a = some c → c.valid = true → c.off = c.seq.length →
    (∃ t, exec (.cexh a) s = .next t ∧ t.dout = 1 ∧ t.halted = false) ∧
    exec (.crdb a) s = .next (s.faultEntry .bounds) ∧
    (∀ w, exec (.crdf w a) s = .next (s.faultEntry .bounds)) ∧
    (∀ w (n : Imm), 1 ≤ n.toNat → n.toNat ≤ s.fieldWidth w →
      exec (.crdt w a n) s = .next (s.faultEntry .bounds)) ∧
    (∀ count : Imm, 1 ≤ count.toNat → exec (.crdy a count) s = .next (s.faultEntry .bounds)) ∧
    (∀ w, ∃ t, exec (.crdt w a 0) s = .next t ∧ t.halted = false ∧ t.cursor a = some c) ∧
    (∃ t, exec (.crdy a 0) s = .next t ∧ t.halted = false ∧ t.cursor a = some c)

/-- R85: a command that does not use DIN is not affected by it, and SPUSHF and SPUSHT only by DIN[N−1:0]. -/
def Obligations.UnusedDinIsIgnored : Prop :=
  ∀ (s : State) (c : Command) (d : DataWord) (i : Instr), c.decode s.cfg = .ok i →
    ((∀ a v, i ≠ .sovwr a v) → (∀ w a, i ≠ .spushf w a) → (∀ w a n, i ≠ .spusht w a n) →
      issue { c with din := d } s = issue c s) ∧
    (∀ w a, (i = .spushf w a ∨ ∃ n, i = .spusht w a n) →
      c.din.toNat % 2 ^ s.fieldWidth w = d.toNat % 2 ^ s.fieldWidth w →
      issue { c with din := d } s = issue c s)

/-! ### Field widths and equalities between commands -/

/-- R82: the width each WSEL code selects and its suffix; with WORD_W = 32 the codes 10 and 11 behave identically; a
command decode accepts with WSEL ≠ 00 is one of the four that have a width. -/
def Obligations.WidthSelector : Prop :=
  (WSel.ofBits 0 = .w8 ∧ WSel.ofBits 1 = .w16 ∧ WSel.ofBits 2 = .w32 ∧ WSel.ofBits 3 = .wW) ∧
  (WSel.suffix .w8 = ".8" ∧ WSel.suffix .w16 = ".16" ∧ WSel.suffix .w32 = ".32" ∧ WSel.suffix .wW = ".W") ∧
  (∀ s : State, s.fieldWidth .w8 = 8 ∧ s.fieldWidth .w16 = 16 ∧ s.fieldWidth .w32 = 32 ∧
    s.fieldWidth .wW = (if s.cfg.wordW = .w32 then 32 else 64) ∧
    (s.cfg.wordW = .w32 → ∀ (a : CtxIdx) (n : Imm),
      exec (.spushf .wW a) s = exec (.spushf .w32 a) s ∧ exec (.spusht .wW a n) s = exec (.spusht .w32 a n) s ∧
      exec (.crdf .wW a) s = exec (.crdf .w32 a) s ∧ exec (.crdt .wW a n) s = exec (.crdt .w32 a n) s)) ∧
  (∀ (cfg : Config) (w : Word32) (n : Nat) (i : Instr), decode cfg w n = .ok i → w.extractLsb' 6 2 ≠ 0#2 →
    ∃ (ws : WSel) (a : CtxIdx) (m : Imm), ws.toBits = w.extractLsb' 6 2 ∧
      (i = .spushf ws a ∨ i = .spusht ws a m ∨ i = .crdf ws a ∨ i = .crdt ws a m))

/-- The inference of R124: SPUSHF of width N and SPUSHT of width N with b = N leave the same state and raise the same
faults. -/
def Obligations.FixedIsTruncatedAtFullWidth : Prop :=
  ∀ (s : State) (w : WSel) (a : CtxIdx),
    exec (.spushf w a) s = exec (.spusht w a (BitVec.ofNat 16 (s.fieldWidth w))) s

/-- R123 and R181: a SPUSHY of B and then of B' leaves the state of one SPUSHY of B ++ B'; a CRDY of k bytes and then
of k' outputs the bytes of one CRDY of k + k' and leaves the same state of the block; when both succeed. -/
def Obligations.RunsConcatenate : Prop :=
  (∀ (s t u : State) (a : CtxIdx) (B B' : List Byte), (B ++ B').length < 2 ^ 16 →
    issue (assemble (.spushy a B)) s = .next t → issue (assemble (.spushy a B')) t = .next u →
    u.halted = false → issue (assemble (.spushy a (B ++ B'))) s = .next u) ∧
  (∀ (s t u : State) (a : CtxIdx) (k k' : Nat), k + k' < 2 ^ 16 →
    issue (assemble (.crdy a (BitVec.ofNat 16 k))) s = .next t →
    issue (assemble (.crdy a (BitVec.ofNat 16 k'))) t = .next u → u.halted = false →
    ∃ (o o' : List Byte), t.reply = some (.response ⟨s.status, s.dout, o⟩) ∧
      u.reply = some (.response ⟨s.status, s.dout, o'⟩) ∧
      issue (assemble (.crdy a (BitVec.ofNat 16 (k + k')))) s =
        .next { u with reply := some (.response ⟨s.status, s.dout, o ++ o'⟩) })

/-! ### Bit order, byte images and the shift datapath -/

/-- The inference of R52: bit j of the value of a successful SPUSHF goes to position p + j, p the length before,
whatever p mod 8 is, and the earlier bits stay; bit j of what a successful CRDF reads comes from position p + j, p the
offset before, and DOUT is 0 above. -/
def Obligations.FieldsAreLittleEndian : Prop :=
  (∀ (s t : State) (w : WSel) (a : CtxIdx) (q : Bits), exec (.spushf w a) s = .next t → t.halted = false →
    s.sink a = some ⟨.active, q⟩ →
    ∃ q', t.sink a = some ⟨.active, q'⟩ ∧ q'.length = q.length + s.fieldWidth w ∧
      (∀ j, j < q.length → q'[j]? = q[j]?) ∧
      (∀ j, j < s.fieldWidth w → q'[q.length + j]? = some (s.current.din.getLsbD j))) ∧
  (∀ (s t : State) (w : WSel) (a : CtxIdx) (c : Cursor), exec (.crdf w a) s = .next t → t.halted = false →
    s.cursor a = some c → c.valid = true →
    (∀ j, j < s.fieldWidth w → c.seq[c.off + j]? = some (t.dout.getLsbD j)) ∧
    (∀ j, s.fieldWidth w ≤ j → t.dout.getLsbD j = false))

/-- R55 and R51: the byte image has ⌈len/8⌉ bytes; bit i of byte k is bit 8k + i of the sequence, and 0 beyond it. -/
def Obligations.ByteImageIsLsbFirst : Prop :=
  ∀ s : Bits, (seqToBytes s).length = (s.length + 7) / 8 ∧
    ∀ k i, k < (s.length + 7) / 8 → i < 8 →
      (seqToBytes s)[k]?.map (fun b => b.getLsbD i) = some (s[8 * k + i]?.getD false)

/-- R53 and the inference of R56: m bytes give 8m bits, bit 8k + i of which is bit i of byte k; the image of the bits
is the bytes; and the bits are the view of the cursor a successful CNEWB constructs. -/
def Obligations.ByteImageInvertsBytes : Prop :=
  (∀ B : List Byte, (bytesToSeq B).length = 8 * B.length ∧
    (∀ k i, i < 8 → (bytesToSeq B)[8 * k + i]? = B[k]?.map (fun b => b.getLsbD i)) ∧
    seqToBytes (bytesToSeq B) = B) ∧
  (∀ (s t : State) (a : CtxIdx) (c : Cursor) (B : List Byte), s.cursor a = some c → B.length < 2 ^ 16 →
    issue (assemble (.cnewb a B)) s = .next t → t.halted = false →
    t.cursor a = some ⟨true, bytesToSeq B, 0⟩)

/-- The inference of R70: a field of n bits at offset off is a window of image bytes shifted right by off mod 8,
modulo 2^n; byte j of a byte run is made of two neighbouring image bytes. -/
def Obligations.FieldReadByShift : Prop :=
  (∀ (s : Bits) (off n : Nat), off + n ≤ s.length →
    fromBits (slice s off n) =
      (((List.range ((off % 8 + n + 7) / 8)).map
        fun j => ((seqToBytes s).getD (off / 8 + j) 0).toNat * 2 ^ (8 * j)).sum >>> (off % 8)) % 2 ^ n) ∧
  (∀ (s : Bits) (off count j : Nat), off + 8 * count ≤ s.length → j < count →
    ((readRun s off count)[j]?.map BitVec.toNat) =
      some (((((seqToBytes s).getD (off / 8 + j) 0).toNat +
        256 * ((seqToBytes s).getD (off / 8 + j + 1) 0).toNat) >>> (off % 8)) % 256))

/-- The inference of R71: with I(s) the number whose base-256 digits are the image of s, appending the n low bits of v
adds (v mod 2^n)·2^len(s) to it. -/
def Obligations.FieldAppendByShift : Prop :=
  ∀ (s : Bits) (v n : Nat),
    ((seqToBytes (s ++ bitsOf v n)).zipIdx.map fun x => x.1.toNat * 2 ^ (8 * x.2)).sum =
      ((seqToBytes s).zipIdx.map fun x => x.1.toNat * 2 ^ (8 * x.2)).sum + v % 2 ^ n * 2 ^ s.length

/-- R73, and R72 at the empty sequence: the rendering examples of the source, whatever DELIM is. -/
def Obligations.RenderingExamples : Prop :=
  ∀ delim : List Char, render delim [] = [] ∧
    render delim [false] = ['.', '.', '.', '.', '.', '.', '.', '0'] ∧
    render delim [false, true, true, true, false, false, false, false, true] =
      ['0', '0', '0', '0', '1', '1', '1', '0'] ++ delim ++ ['.', '.', '.', '.', '.', '.', '.', '1']

/-! ### Round trips (R182) -/

/-- R182, first item: after a prefix p of 0 to 7 bits, a fixed-width value pushed, finalized and read back after
reading |p| bits is the value, and the cursor is exhausted. -/
def Obligations.FixedFieldsRoundTrip : Prop :=
  ∀ (s : State) (w : WSel) (a b : CtxIdx) (p : Bits) (v : DataWord), s.Inv → s.halted = false →
    a.toNat < s.cfg.ns → b.toNat < s.cfg.nc → s.sink a = some ⟨.active, p⟩ → p.length ≤ 7 →
    p.length + s.fieldWidth w ≤ s.cfg.capBits → v.toNat < 2 ^ s.fieldWidth w →
    ∃ t, issueAll [assemble (.spushf w a v), assemble (.sfinc a b),
        assemble (.crdt .w8 b (BitVec.ofNat 16 p.length)), assemble (.crdf w b)] s = .next t ∧
      t.halted = false ∧ t.dout = v ∧
      t.cursor b = some ⟨true, p ++ bitsOf v.toNat (s.fieldWidth w), p.length + s.fieldWidth w⟩

/-- R182, second item: the same for a truncated field of b ≤ N bits, which reads back as v mod 2^b. -/
def Obligations.TruncatedFieldsRoundTrip : Prop :=
  ∀ (s : State) (w : WSel) (a b : CtxIdx) (p : Bits) (v : DataWord) (n : Imm), s.Inv → s.halted = false →
    a.toNat < s.cfg.ns → b.toNat < s.cfg.nc → s.sink a = some ⟨.active, p⟩ → p.length ≤ 7 →
    n.toNat ≤ s.fieldWidth w → p.length + n.toNat ≤ s.cfg.capBits →
    ∃ t, issueAll [assemble (.spusht w a v n), assemble (.sfinc a b),
        assemble (.crdt .w8 b (BitVec.ofNat 16 p.length)), assemble (.crdt w b n)] s = .next t ∧
      t.halted = false ∧ t.dout.toNat = v.toNat % 2 ^ n.toNat

/-- R182, third item: the same for a byte run, which is output as it was pushed. -/
def Obligations.ByteRunsRoundTrip : Prop :=
  ∀ (s : State) (a b : CtxIdx) (p : Bits) (B : List Byte), s.Inv → s.halted = false →
    a.toNat < s.cfg.ns → b.toNat < s.cfg.nc → s.sink a = some ⟨.active, p⟩ → p.length ≤ 7 →
    B.length < 2 ^ 16 → p.length + 8 * B.length ≤ s.cfg.capBits →
    ∃ t, issueAll [assemble (.spushy a B), assemble (.sfinc a b),
        assemble (.crdt .w8 b (BitVec.ofNat 16 p.length)), assemble (.crdy b (BitVec.ofNat 16 B.length))] s =
          .next t ∧
      t.halted = false ∧ t.reply = some (.response ⟨t.status, t.dout, B⟩)
end

