-- ==== Sys2Proof/Laws/Bits.lean ====
section
/-! SUPPORT. Laws/Bits.lean: lengths, indexing and inverse laws of the bit-sequence functions. -/

namespace Sys2Proof.Machine

@[simp] theorem length_bitsOf (v n : Nat) : (bitsOf v n).length = n := by
  simp [bitsOf]

@[simp] theorem bitsOf_zero (v : Nat) : bitsOf v 0 = [] := rfl

theorem getElem?_bitsOf {v n j : Nat} (h : j < n) : (bitsOf v n)[j]? = some (v.testBit j) := by
  simp [bitsOf, h]

/-- The bits of v from the least significant: the head is bit 0, the tail is the bits of v / 2. -/
theorem bitsOf_succ (v n : Nat) : bitsOf v (n + 1) = v.testBit 0 :: bitsOf (v / 2) n := by
  simp only [bitsOf, List.range_succ_eq_map, List.map_cons, List.map_map]
  congr 1
  apply List.map_congr_left
  intro j _
  simp [Nat.testBit_succ]

/-- `from_bits` inverts `bits_of`: what is read is the value modulo 2^n. -/
theorem fromBits_bitsOf (v n : Nat) : fromBits (bitsOf v n) = v % 2 ^ n := by
  induction n generalizing v with
  | zero => simp [fromBits, Nat.mod_one]
  | succ n ih =>
    rw [bitsOf_succ, fromBits, ih, Nat.pow_succ, Nat.mul_comm (2 ^ n) 2, Nat.mod_mul]
    congr 1
    rcases Nat.mod_two_eq_zero_or_one v with h | h <;> simp [Nat.testBit_zero, h]

theorem fromBits_lt (t : Bits) : fromBits t < 2 ^ t.length := by
  induction t with
  | nil => simp [fromBits]
  | cons b t ih =>
    have := Bool.toNat_lt b
    simp only [fromBits, List.length_cons, Nat.pow_succ]
    omega

theorem fromBits_append (s t : Bits) : fromBits (s ++ t) = fromBits s + 2 ^ s.length * fromBits t := by
  induction s with
  | nil => simp [fromBits]
  | cons b s ih =>
    simp only [List.cons_append, fromBits, ih, List.length_cons, Nat.pow_succ]
    ring

/-- `bits_of` inverts `from_bits`. -/
theorem bitsOf_fromBits (t : Bits) : bitsOf (fromBits t) t.length = t := by
  induction t with
  | nil => rfl
  | cons b t ih =>
    rw [List.length_cons, bitsOf_succ]
    have h2 : fromBits (b :: t) / 2 = fromBits t := by
      have := Bool.toNat_lt b
      simp only [fromBits]; omega
    have h0 : (fromBits (b :: t)).testBit 0 = b := by
      simp only [Nat.testBit_zero, fromBits]; cases b <;> simp
    rw [h2, h0, ih]

@[simp] theorem length_slice (s : Bits) (a n : Nat) : (slice s a n).length = min n (s.length - a) := by
  simp [slice]

theorem slice_eq_of_append (p t r : Bits) : slice (p ++ (t ++ r)) p.length t.length = t := by
  simp [slice]

/-- A slice of n + m bits is a slice of n bits and the slice of the m bits after it. -/
theorem slice_add (s : Bits) (a n m : Nat) : slice s a (n + m) = slice s a n ++ slice s (a + n) m := by
  simp [slice, List.take_add, List.drop_drop]

@[simp] theorem bytesToSeq_nil : bytesToSeq [] = [] := rfl

@[simp] theorem bytesToSeq_cons (b : Byte) (bs : List Byte) :
    bytesToSeq (b :: bs) = bitsOf b.toNat 8 ++ bytesToSeq bs := by
  simp [bytesToSeq]

@[simp] theorem bytesToSeq_append (bs cs : List Byte) :
    bytesToSeq (bs ++ cs) = bytesToSeq bs ++ bytesToSeq cs := by
  simp [bytesToSeq]

/-- "bit length is exactly 8 * byte_count" (spec/20_memory.md R56). -/
@[simp] theorem length_bytesToSeq (bs : List Byte) : (bytesToSeq bs).length = 8 * bs.length := by
  induction bs with
  | nil => rfl
  | cons b bs ih => rw [bytesToSeq_cons]; simp only [List.length_append, length_bitsOf, ih, List.length_cons]; omega

@[simp] theorem length_seqToBytes (s : Bits) : (seqToBytes s).length = byteCount s.length := by
  simp [seqToBytes]

@[simp] theorem length_readRun (s : Bits) (off count : Nat) : (readRun s off count).length = count := by
  simp [readRun]

/-- Bit i of the number a sequence stands for is its element i, and 0 beyond its end. -/
theorem testBit_fromBits (t : Bits) (i : Nat) : (fromBits t).testBit i = t[i]?.getD false := by
  induction t generalizing i with
  | nil => simp [fromBits]
  | cons b t ih =>
    cases i with
    | zero => simp only [fromBits, Nat.testBit_zero]; cases b <;> simp
    | succ i =>
      have hb := Bool.toNat_lt b
      rw [Nat.testBit_succ, show fromBits (b :: t) / 2 = fromBits t by simp only [fromBits]; omega, ih,
        List.getElem?_cons_succ]

theorem fromBits_slice_lt (s : Bits) (a n : Nat) : fromBits (slice s a n) < 2 ^ n :=
  (fromBits_lt _).trans_le (Nat.pow_le_pow_right (by decide) (by simp))

/-- Bit i of byte k of a byte run stands at index 8k + i (spec/20_memory.md R53). -/
theorem getElem?_bytesToSeq (B : List Byte) (k : Nat) {i : Nat} (hi : i < 8) :
    (bytesToSeq B)[8 * k + i]? = B[k]?.map fun b => b.getLsbD i := by
  induction B generalizing k with
  | nil => simp
  | cons b B ih =>
    rw [bytesToSeq_cons]
    cases k with
    | zero =>
      rw [Nat.mul_zero, Nat.zero_add, List.getElem?_append_left (by simpa using hi), getElem?_bitsOf hi]
      simp [BitVec.testBit_toNat]
    | succ k =>
      rw [List.getElem?_append_right (by simp; omega), List.getElem?_cons_succ, length_bitsOf,
        show 8 * (k + 1) + i - 8 = 8 * k + i by omega, ih]

theorem padCount_lt (n : Nat) : padCount n < 8 := by
  simp only [padCount]; omega

/-- After padding the length is a multiple of 8. -/
theorem padCount_aligns (n : Nat) : (n + padCount n) % 8 = 0 := by
  simp only [padCount]; omega

/-- Padding never passes a capacity that is a multiple of 8 (spec/40_sink.md R117). -/
theorem padCount_le {n cap : Nat} (hcap : cap % 8 = 0) (h : n ≤ cap) : n + padCount n ≤ cap := by
  simp only [padCount]; omega

end Sys2Proof.Machine
end

