-- ==== Sys2Proof/Laws/Decode.lean ====
section
/-! SUPPORT. Laws/Decode.lean: packing and unpacking the one command format (spec/30_encoding.md R81), and the code
of a width selector (R82). -/

namespace Sys2Proof

@[simp] theorem WSel.ofBits_toBits (w : WSel) : WSel.ofBits w.toBits = w := by
  cases w <;> rfl

@[simp] theorem WSel.toBits_ofBits (x : BitVec 2) : (WSel.ofBits x).toBits = x := by
  revert x; decide

/-- Unpacking a packed word gives back every field: no bit of the format is dropped. -/
@[simp] theorem Fields.unpack_pack (f : Fields) : Fields.unpack f.pack = f := by
  rcases f with ⟨op, wsel, a, b, m⟩
  simp only [Fields.unpack, Fields.pack, Fields.mk.injEq]
  refine ⟨?_, ?_, ?_, ?_, ?_⟩ <;>
    · ext i hi
      simp only [BitVec.getElem_extractLsb', BitVec.getLsbD_append]
      grind

/-- Packing the fields of a word gives back the word: the fields cover all 32 bits. -/
@[simp] theorem Fields.pack_unpack (w : Word32) : (Fields.unpack w).pack = w := by
  ext i hi
  simp only [Fields.unpack, Fields.pack]
  grind

/-- The value of a word: IMM·2^16 + CTXB·2^12 + CTXA·2^8 + WSEL·2^6 + OP (R81). -/
theorem Fields.toNat_pack (f : Fields) :
    f.pack.toNat = f.imm.toNat * 2 ^ 16 + f.ctxb.toNat * 2 ^ 12 + f.ctxa.toNat * 2 ^ 8 + f.wsel.toNat * 2 ^ 6 +
      f.op.toNat := by
  rcases f with ⟨op, wsel, a, b, m⟩
  have := op.isLt; have := wsel.isLt; have := a.isLt; have := b.isLt
  simp only [Fields.pack, BitVec.toNat_append]
  rw [← Nat.shiftLeft_add_eq_or_of_lt (by omega), ← Nat.shiftLeft_add_eq_or_of_lt (by omega),
    ← Nat.shiftLeft_add_eq_or_of_lt (by omega), ← Nat.shiftLeft_add_eq_or_of_lt (by omega)]
  simp only [Nat.shiftLeft_eq]
  omega

theorem toNat_immOfBit (v : Bool) : (immOfBit v).toNat = v.toNat := by
  cases v <;> decide

end Sys2Proof
end

