-- ==== Sys2Proof/Laws/State.lean ====
section
/-! SUPPORT. Laws/State.lean: what each update of State leaves in each field. -/

namespace Sys2Proof.Machine

section Updates
variable (s : State) (a b : CtxIdx) (k : Sink) (c : Cursor) (v : Nat) (q : Bits) (out : List Byte)
  (f : FaultKind) (addr : Nat) (e : HostEvent)

@[simp] theorem setSink_cfg : (s.setSink a k).cfg = s.cfg := rfl
@[simp] theorem setSink_sinks : (s.setSink a k).sinks = s.sinks.set a.toNat k := rfl
@[simp] theorem setSink_cursors : (s.setSink a k).cursors = s.cursors := rfl
@[simp] theorem setSink_status : (s.setSink a k).status = s.status := rfl
@[simp] theorem setSink_fcmd : (s.setSink a k).fcmd = s.fcmd := rfl
@[simp] theorem setSink_dout : (s.setSink a k).dout = s.dout := rfl
@[simp] theorem setSink_chan : (s.setSink a k).chan = s.chan := rfl
@[simp] theorem setSink_reply : (s.setSink a k).reply = s.reply := rfl

@[simp] theorem setCursor_cfg : (s.setCursor a c).cfg = s.cfg := rfl
@[simp] theorem setCursor_sinks : (s.setCursor a c).sinks = s.sinks := rfl
@[simp] theorem setCursor_cursors : (s.setCursor a c).cursors = s.cursors.set a.toNat c := rfl
@[simp] theorem setCursor_status : (s.setCursor a c).status = s.status := rfl
@[simp] theorem setCursor_fcmd : (s.setCursor a c).fcmd = s.fcmd := rfl
@[simp] theorem setCursor_dout : (s.setCursor a c).dout = s.dout := rfl
@[simp] theorem setCursor_chan : (s.setCursor a c).chan = s.chan := rfl
@[simp] theorem setCursor_reply : (s.setCursor a c).reply = s.reply := rfl

@[simp] theorem setDout_cfg : (s.setDout v).cfg = s.cfg := rfl
@[simp] theorem setDout_sinks : (s.setDout v).sinks = s.sinks := rfl
@[simp] theorem setDout_cursors : (s.setDout v).cursors = s.cursors := rfl
@[simp] theorem setDout_status : (s.setDout v).status = s.status := rfl
@[simp] theorem setDout_fcmd : (s.setDout v).fcmd = s.fcmd := rfl
@[simp] theorem setDout_dout : (s.setDout v).dout = BitVec.ofNat 64 (v % 2 ^ s.cfg.wordW.bits) := rfl
@[simp] theorem setDout_chan : (s.setDout v).chan = s.chan := rfl
@[simp] theorem setDout_reply : (s.setDout v).reply = s.reply := rfl

@[simp] theorem setSeq_cfg : (s.setSeq a q).cfg = s.cfg := rfl
@[simp] theorem setSeq_sinks : (s.setSeq a q).sinks = s.sinks.set a.toNat { st := .active, seq := q } := rfl
@[simp] theorem setSeq_cursors : (s.setSeq a q).cursors = s.cursors := rfl
@[simp] theorem setSeq_status : (s.setSeq a q).status = s.status := rfl
@[simp] theorem setSeq_fcmd : (s.setSeq a q).fcmd = s.fcmd := rfl
@[simp] theorem setSeq_dout : (s.setSeq a q).dout = s.dout := rfl
@[simp] theorem setSeq_chan : (s.setSeq a q).chan = s.chan := rfl
@[simp] theorem setSeq_reply : (s.setSeq a q).reply = s.reply := rfl

@[simp] theorem respond_cfg : (s.respond out).cfg = s.cfg := rfl
@[simp] theorem respond_sinks : (s.respond out).sinks = s.sinks := rfl
@[simp] theorem respond_cursors : (s.respond out).cursors = s.cursors := rfl
@[simp] theorem respond_status : (s.respond out).status = s.status := rfl
@[simp] theorem respond_fcmd : (s.respond out).fcmd = s.fcmd := rfl
@[simp] theorem respond_dout : (s.respond out).dout = s.dout := rfl
@[simp] theorem respond_chan : (s.respond out).chan = s.chan := rfl
@[simp] theorem respond_reply : (s.respond out).reply = some (.response { status := s.status, dout := s.dout, bytesOut := out }) := rfl

@[simp] theorem faultEntry_cfg : (s.faultEntry f).cfg = s.cfg := rfl
@[simp] theorem faultEntry_sinks : (s.faultEntry f).sinks = s.sinks := rfl
@[simp] theorem faultEntry_cursors : (s.faultEntry f).cursors = s.cursors := rfl
@[simp] theorem faultEntry_status : (s.faultEntry f).status = f.statusWord := rfl
@[simp] theorem faultEntry_fcmd : (s.faultEntry f).fcmd = s.cmdWord := rfl
@[simp] theorem faultEntry_dout : (s.faultEntry f).dout = s.dout := rfl
@[simp] theorem faultEntry_chan : (s.faultEntry f).chan = s.chan := rfl
@[simp] theorem faultEntry_reply : (s.faultEntry f).reply = some (.response { status := f.statusWord, dout := s.dout, bytesOut := [] }) := rfl

@[simp] theorem notPerformed_cfg : (s.notPerformed).cfg = s.cfg := rfl
@[simp] theorem notPerformed_sinks : (s.notPerformed).sinks = s.sinks := rfl
@[simp] theorem notPerformed_cursors : (s.notPerformed).cursors = s.cursors := rfl
@[simp] theorem notPerformed_status : (s.notPerformed).status = s.status := rfl
@[simp] theorem notPerformed_fcmd : (s.notPerformed).fcmd = s.fcmd := rfl
@[simp] theorem notPerformed_dout : (s.notPerformed).dout = s.dout := rfl
@[simp] theorem notPerformed_chan : (s.notPerformed).chan = s.chan := rfl
@[simp] theorem notPerformed_reply : (s.notPerformed).reply = some (.response { status := s.status, dout := s.dout, bytesOut := [] }) := rfl

@[simp] theorem blockReset_cfg : (s.blockReset).cfg = s.cfg := rfl
@[simp] theorem blockReset_sinks : (s.blockReset).sinks = List.replicate s.cfg.ns Sink.empty := rfl
@[simp] theorem blockReset_cursors : (s.blockReset).cursors = List.replicate s.cfg.nc Cursor.invalid := rfl
@[simp] theorem blockReset_status : (s.blockReset).status = 0 := rfl
@[simp] theorem blockReset_fcmd : (s.blockReset).fcmd = 0 := rfl
@[simp] theorem blockReset_dout : (s.blockReset).dout = 0 := rfl
@[simp] theorem blockReset_chan : (s.blockReset).chan = s.chan := rfl
@[simp] theorem blockReset_reply : (s.blockReset).reply = s.reply := rfl

@[simp] theorem resetByInput_cfg : (s.resetByInput).cfg = s.cfg := rfl
@[simp] theorem resetByInput_sinks : (s.resetByInput).sinks = List.replicate s.cfg.ns Sink.empty := rfl
@[simp] theorem resetByInput_cursors : (s.resetByInput).cursors = List.replicate s.cfg.nc Cursor.invalid := rfl
@[simp] theorem resetByInput_status : (s.resetByInput).status = 0 := rfl
@[simp] theorem resetByInput_fcmd : (s.resetByInput).fcmd = 0 := rfl
@[simp] theorem resetByInput_dout : (s.resetByInput).dout = 0 := rfl
@[simp] theorem resetByInput_chan : (s.resetByInput).chan = s.chan := rfl
@[simp] theorem resetByInput_reply : (s.resetByInput).reply = some .resetDone := rfl

@[simp] theorem answerRead_cfg : (s.answerRead addr).cfg = s.cfg := rfl
@[simp] theorem answerRead_sinks : (s.answerRead addr).sinks = s.sinks := rfl
@[simp] theorem answerRead_cursors : (s.answerRead addr).cursors = s.cursors := rfl
@[simp] theorem answerRead_status : (s.answerRead addr).status = s.status := rfl
@[simp] theorem answerRead_fcmd : (s.answerRead addr).fcmd = s.fcmd := rfl
@[simp] theorem answerRead_dout : (s.answerRead addr).dout = s.dout := rfl
@[simp] theorem answerRead_chan : (s.answerRead addr).chan = s.chan := rfl
@[simp] theorem answerRead_reply : (s.answerRead addr).reply = some (.regValue (s.readPort addr)) := rfl

@[simp] theorem closeHead_cfg : (s.closeHead).cfg = s.cfg := rfl
@[simp] theorem closeHead_sinks : (s.closeHead).sinks = s.sinks := rfl
@[simp] theorem closeHead_cursors : (s.closeHead).cursors = s.cursors := rfl
@[simp] theorem closeHead_status : (s.closeHead).status = s.status := rfl
@[simp] theorem closeHead_fcmd : (s.closeHead).fcmd = s.fcmd := rfl
@[simp] theorem closeHead_dout : (s.closeHead).dout = s.dout := rfl
@[simp] theorem closeHead_chan : (s.closeHead).chan = s.chan.tail := rfl
@[simp] theorem closeHead_reply : (s.closeHead).reply = s.reply := rfl

@[simp] theorem offering_cfg : (s.offering e).cfg = s.cfg := rfl
@[simp] theorem offering_sinks : (s.offering e).sinks = s.sinks := rfl
@[simp] theorem offering_cursors : (s.offering e).cursors = s.cursors := rfl
@[simp] theorem offering_status : (s.offering e).status = s.status := rfl
@[simp] theorem offering_fcmd : (s.offering e).fcmd = s.fcmd := rfl
@[simp] theorem offering_dout : (s.offering e).dout = s.dout := rfl
@[simp] theorem offering_chan : (s.offering e).chan = [e] := rfl
@[simp] theorem offering_reply : (s.offering e).reply = s.reply := rfl

end Updates

end Sys2Proof.Machine
end

