-- ==== Sys2Proof/Laws/Ops.lean ====
section
/-! SUPPORT. Laws/Ops.lean: what each shared operation can do, said once. -/

namespace Sys2Proof.Machine

variable {s t u : State} {i : Instr} {a b : CtxIdx} {body : Effect} {out : List Byte} {f : FaultKind}

/-! ### The command frame -/

theorem accepts_iff : s.accepts i = true ↔ s.halted = false ∧ i.legal s.cfg s.payload.length = true := by
  simp [State.accepts]

theorem perform_ok (h : s.accepts i = true) (hb : body = .ok (t, out)) :
    s.perform i body = .next (t.respond out) := by
  obtain ⟨h1, h2⟩ := accepts_iff.1 h
  simp [State.perform, h1, h2, hb]

theorem perform_error (h : s.accepts i = true) (hb : body = .error f) :
    s.perform i body = .next (s.faultEntry f) := by
  obtain ⟨h1, h2⟩ := accepts_iff.1 h
  simp [State.perform, h1, h2, hb]

theorem perform_halted (h : s.halted = true) : s.perform i body = .next s.notPerformed := by
  simp [State.perform, h]

theorem perform_illegal (h : s.halted = false) (hl : i.legal s.cfg s.payload.length = false) :
    s.perform i body = .next (s.faultEntry .illegalCmd) := by
  simp [State.perform, h, hl]

/-- Everything a performed command can answer: nothing (halted), the body's effect, or a fault entry. -/
theorem perform_cases (h : s.perform i body = .next u) :
    (s.halted = true ∧ u = s.notPerformed) ∨
    (s.accepts i = true ∧ ∃ (t : State) (out : List Byte), body = .ok (t, out) ∧ u = t.respond out) ∨
    (s.halted = false ∧ ∃ f : FaultKind, u = s.faultEntry f) := by
  cases hh : s.halted with
  | true =>
    rw [perform_halted hh] at h
    injection h with h; exact .inl ⟨rfl, h.symm⟩
  | false =>
    cases hl : i.legal s.cfg s.payload.length with
    | false =>
      rw [perform_illegal hh hl] at h
      injection h with h; exact .inr (.inr ⟨rfl, _, h.symm⟩)
    | true =>
      have ha := accepts_iff.2 ⟨hh, hl⟩
      cases hb : body with
      | error f =>
        rw [perform_error ha hb] at h
        injection h with h; exact .inr (.inr ⟨rfl, f, h.symm⟩)
      | ok p =>
        obtain ⟨t, out⟩ := p
        rw [perform_ok ha hb] at h
        injection h with h; exact .inr (.inl ⟨ha, t, out, rfl, h.symm⟩)

/-! ### Checks -/

@[simp] theorem bind_ok {ε α β : Type} (x : α) (g : α → Except ε β) : (Except.ok x >>= g) = g x := rfl

@[simp] theorem bind_error {ε α β : Type} (x : ε) (g : α → Except ε β) :
    ((Except.error x : Except ε α) >>= g) = .error x := rfl

theorem bind_eq_ok {ε α β : Type} {x : Except ε α} {g : α → Except ε β} {y : β} :
    (x >>= g) = .ok y ↔ ∃ z, x = .ok z ∧ g z = .ok y := by
  cases x <;> simp

@[simp] theorem require_true (f : FaultKind) : require true f = .ok () := rfl

@[simp] theorem require_false (f : FaultKind) : require false f = .error f := rfl

theorem require_eq_ok {cond : Bool} : require cond f = .ok () ↔ cond = true := by
  cases cond <;> simp [require]

theorem activeSeq_active {q : Bits} (h : s.sink a = some { st := .active, seq := q }) : s.activeSeq a = .ok q := by
  simp [State.activeSeq, h]

theorem activeSeq_finalized {q : Bits} (h : s.sink a = some { st := .finalized, seq := q }) :
    s.activeSeq a = .error .ctxState := by
  simp [State.activeSeq, h]

theorem activeSeq_eq_ok {q : Bits} : s.activeSeq a = .ok q ↔ s.sink a = some { st := .active, seq := q } := by
  unfold State.activeSeq
  rcases s.sink a with _ | ⟨_ | _, k⟩ <;> simp

theorem validCursor_valid {c : Cursor} (h : s.cursor a = some c) (hv : c.valid = true) :
    s.validCursor a = .ok c := by
  simp [State.validCursor, h, hv]

theorem validCursor_invalid {c : Cursor} (h : s.cursor a = some c) (hv : c.valid = false) :
    s.validCursor a = .error .ctxState := by
  simp [State.validCursor, h, hv]

theorem validCursor_eq_ok {c : Cursor} : s.validCursor a = .ok c ↔ s.cursor a = some c ∧ c.valid = true := by
  unfold State.validCursor
  rcases s.cursor a with _ | c'
  · simp
  · by_cases hv : c'.valid = true
    · simp only [hv, if_true, Except.ok.injEq, Option.some.injEq]
      constructor
      · rintro rfl; exact ⟨rfl, hv⟩
      · exact fun h => h.1
    · simp only [hv]
      constructor
      · intro h; cases h
      · rintro ⟨h, hc⟩; cases h; exact absurd hc hv

/-! ### Operands -/

theorem fieldWidth_le {w : WSel} : s.fieldWidth w ≤ s.cfg.wordW.bits := by
  cases w <;> cases h : s.cfg.wordW <;> simp [State.fieldWidth, WordWidth.bits, h]

theorem fieldWidth_le_64 {w : WSel} : s.fieldWidth w ≤ 64 := by
  cases w <;> cases h : s.cfg.wordW <;> simp [State.fieldWidth, WordWidth.bits, h]

/-- The N low bits of DIN are the N low bits of the message's data operand: N ≤ WORD_W. -/
theorem dinField_eq {w : WSel} : s.dinField w = s.current.din.toNat % 2 ^ s.fieldWidth w :=
  Nat.mod_mod_of_dvd _ (Nat.pow_dvd_pow 2 fieldWidth_le)

theorem payload_length_of_accepts (h : s.accepts i = true) : s.payload.length = i.payloadNeed := by
  have := (accepts_iff.1 h).2
  simp only [Instr.legal, Bool.and_eq_true, beq_iff_eq] at this
  exact this.2

theorem setDout_lt {v : Nat} : (s.setDout v).dout.toNat < 2 ^ s.cfg.wordW.bits := by
  rw [setDout_dout, BitVec.toNat_ofNat]
  exact (Nat.mod_le _ _).trans_lt (Nat.mod_lt v (Nat.two_pow_pos _))

/-- A value of at most N bits, N ≤ WORD_W, is in DOUT whole. -/
theorem setDout_toNat {v n : Nat} {w : WSel} (hv : v < 2 ^ n) (hn : n ≤ s.fieldWidth w) :
    (s.setDout v).dout.toNat = v := by
  have h1 : 2 ^ n ≤ 2 ^ s.cfg.wordW.bits := Nat.pow_le_pow_right (by decide) (hn.trans fieldWidth_le)
  have h2 : 2 ^ n ≤ 2 ^ 64 := Nat.pow_le_pow_right (by decide) (hn.trans fieldWidth_le_64)
  rw [setDout_dout, Nat.mod_eq_of_lt (by omega), BitVec.toNat_ofNat, Nat.mod_eq_of_lt (by omega)]

/-! ### Shared bodies -/

theorem append_eq_ok {q bits : Bits} :
    s.append a q bits = .ok (t, out) ↔
      q.length + bits.length ≤ s.cfg.capBits ∧ t = s.setSeq a (q ++ bits) ∧ out = [] := by
  unfold State.append State.requireCapacity
  by_cases h : q.length + bits.length ≤ s.cfg.capBits <;> simp [h, pure, Except.pure, eq_comm]

theorem append_full {q bits : Bits} (h : s.cfg.capBits < q.length + bits.length) :
    s.append a q bits = .error .capacity := by
  simp [State.append, State.requireCapacity, Nat.not_le.2 h]

theorem pushField_eq_ok {w : WSel} {n : Nat} :
    s.pushField w a n = .ok (t, out) ↔
      ∃ q, s.sink a = some { st := .active, seq := q } ∧ n ≤ s.fieldWidth w ∧ q.length + n ≤ s.cfg.capBits ∧
        t = s.setSeq a (q ++ bitsOf (s.dinField w) n) ∧ out = [] := by
  simp only [State.pushField, bind_eq_ok, activeSeq_eq_ok, append_eq_ok, length_bitsOf]
  constructor
  · rintro ⟨q, hq, ⟨⟩, hr, h⟩
    exact ⟨q, hq, by simpa using require_eq_ok.1 hr, h⟩
  · rintro ⟨q, hq, hn, h⟩
    exact ⟨q, hq, (), require_eq_ok.2 (by simpa using hn), h⟩

theorem pushField_finalized {w : WSel} {n : Nat} {q : Bits} (h : s.sink a = some { st := .finalized, seq := q }) :
    s.pushField w a n = .error .ctxState := by
  rw [State.pushField, activeSeq_finalized h]; rfl

theorem pushField_wide {w : WSel} {n : Nat} {q : Bits} (h : s.sink a = some { st := .active, seq := q })
    (hn : s.fieldWidth w < n) : s.pushField w a n = .error .width := by
  rw [State.pushField, activeSeq_active h]; simp [Nat.not_le.2 hn]

theorem pushField_full {w : WSel} {n : Nat} {q : Bits} (h : s.sink a = some { st := .active, seq := q })
    (hn : n ≤ s.fieldWidth w) (hc : s.cfg.capBits < q.length + n) : s.pushField w a n = .error .capacity := by
  rw [State.pushField, activeSeq_active h]
  simp only [bind_ok, hn, decide_true, require_true]
  exact append_full (by simpa using hc)

theorem advance_eq_ok {c : Cursor} {n : Nat} :
    s.advance a c n = .ok t ↔ c.off + n ≤ c.seq.length ∧ t = s.setCursor a { c with off := c.off + n } := by
  unfold State.advance
  by_cases h : c.off + n ≤ c.seq.length <;> simp [h, pure, Except.pure, eq_comm]

theorem advance_past_end {c : Cursor} {n : Nat} (h : c.seq.length < c.off + n) :
    s.advance a c n = .error .bounds := by
  simp [State.advance, Nat.not_le.2 h]

theorem readField_eq_ok {w : WSel} {n : Nat} :
    s.readField w a n = .ok (t, out) ↔
      ∃ c, s.cursor a = some c ∧ c.valid = true ∧ n ≤ s.fieldWidth w ∧ c.off + n ≤ c.seq.length ∧
        t = (s.setCursor a { c with off := c.off + n }).setDout (fromBits (slice c.seq c.off n)) ∧ out = [] := by
  simp only [State.readField, bind_eq_ok, validCursor_eq_ok, advance_eq_ok]
  constructor
  · rintro ⟨c, ⟨hc, hv⟩, ⟨⟩, hr, u, ⟨hb, rfl⟩, h⟩
    simp only [pure, Except.pure, Except.ok.injEq, Prod.mk.injEq] at h
    exact ⟨c, hc, hv, by simpa using require_eq_ok.1 hr, hb, h.1.symm, h.2.symm⟩
  · rintro ⟨c, hc, hv, hn, hb, rfl, rfl⟩
    exact ⟨c, ⟨hc, hv⟩, (), require_eq_ok.2 (by simpa using hn), _, ⟨hb, rfl⟩, rfl⟩

theorem readField_invalid {w : WSel} {n : Nat} {c : Cursor} (h : s.cursor a = some c) (hv : c.valid = false) :
    s.readField w a n = .error .ctxState := by
  rw [State.readField, validCursor_invalid h hv]; rfl

theorem readField_wide {w : WSel} {n : Nat} {c : Cursor} (h : s.cursor a = some c) (hv : c.valid = true)
    (hn : s.fieldWidth w < n) : s.readField w a n = .error .width := by
  rw [State.readField, validCursor_valid h hv]; simp [Nat.not_le.2 hn]

theorem readField_past_end {w : WSel} {n : Nat} {c : Cursor} (h : s.cursor a = some c) (hv : c.valid = true)
    (hn : n ≤ s.fieldWidth w) (hb : c.seq.length < c.off + n) : s.readField w a n = .error .bounds := by
  rw [State.readField, validCursor_valid h hv]; simp [hn, advance_past_end hb]

theorem query_eq_ok {value : Cursor → Nat} :
    s.query a value = .ok (t, out) ↔
      ∃ c, s.cursor a = some c ∧ c.valid = true ∧ t = s.setDout (value c) ∧ out = [] := by
  simp only [State.query, bind_eq_ok, validCursor_eq_ok]
  constructor
  · rintro ⟨c, ⟨hc, hv⟩, h⟩
    simp only [pure, Except.pure, Except.ok.injEq, Prod.mk.injEq] at h
    exact ⟨c, hc, hv, h.1.symm, h.2.symm⟩
  · rintro ⟨c, hc, hv, rfl, rfl⟩
    exact ⟨c, ⟨hc, hv⟩, rfl⟩

/-! ### Reading a context after a write -/

theorem sink_setSink_self {k k' : Sink} (h : s.sink a = some k') : (s.setSink a k).sink a = some k := by
  have hlt : a.toNat < s.sinks.length := (List.getElem?_eq_some_iff.1 h).1
  simp [State.sink, hlt]

theorem sink_setSink_ne {k : Sink} (h : b ≠ a) : (s.setSink a k).sink b = s.sink b := by
  have : a.toNat ≠ b.toNat := fun e => h (BitVec.eq_of_toNat_eq e.symm)
  simp [State.sink, List.getElem?_set_ne this]

theorem cursor_setCursor_self {c c' : Cursor} (h : s.cursor a = some c') : (s.setCursor a c).cursor a = some c := by
  have hlt : a.toNat < s.cursors.length := (List.getElem?_eq_some_iff.1 h).1
  simp [State.cursor, hlt]

theorem cursor_setCursor_ne {c : Cursor} (h : b ≠ a) : (s.setCursor a c).cursor b = s.cursor b := by
  have : a.toNat ≠ b.toNat := fun e => h (BitVec.eq_of_toNat_eq e.symm)
  simp [State.cursor, List.getElem?_set_ne this]

@[simp] theorem cursor_setSink {k : Sink} : (s.setSink a k).cursor b = s.cursor b := rfl

@[simp] theorem sink_setCursor {c : Cursor} : (s.setCursor a c).sink b = s.sink b := rfl

@[simp] theorem sink_setDout {v : Nat} : (s.setDout v).sink a = s.sink a := rfl

@[simp] theorem cursor_setDout {v : Nat} : (s.setDout v).cursor a = s.cursor a := rfl

@[simp] theorem sink_respond : (s.respond out).sink a = s.sink a := rfl

@[simp] theorem cursor_respond : (s.respond out).cursor a = s.cursor a := rfl

@[simp] theorem sink_faultEntry : (s.faultEntry f).sink a = s.sink a := rfl

@[simp] theorem cursor_faultEntry : (s.faultEntry f).cursor a = s.cursor a := rfl

@[simp] theorem sink_notPerformed : s.notPerformed.sink a = s.sink a := rfl

@[simp] theorem cursor_notPerformed : s.notPerformed.cursor a = s.cursor a := rfl

/-! ### The canonical form of the contexts -/

theorem memory_wf_iff :
    Memory.wf s = true ↔ s.sinks.length = s.cfg.ns ∧ s.cursors.length = s.cfg.nc ∧
      (∀ k ∈ s.sinks, Sink.wf s.cfg.capBits k = true) ∧ (∀ c ∈ s.cursors, Cursor.wf s.cfg.capBits c = true) := by
  simp [Memory.wf, and_assoc]

/-- Writing a canonical sink keeps the canonical form. -/
theorem memory_wf_setSink {k : Sink} (h : Memory.wf s = true) (hk : Sink.wf s.cfg.capBits k = true) :
    Memory.wf (s.setSink a k) = true := by
  obtain ⟨h1, h2, h3, h4⟩ := memory_wf_iff.1 h
  refine memory_wf_iff.2 ⟨by simpa using h1, h2, fun x hx => ?_, h4⟩
  rcases List.mem_or_eq_of_mem_set hx with hx | rfl
  · exact h3 x hx
  · exact hk

/-- Writing a canonical cursor keeps the canonical form. -/
theorem memory_wf_setCursor {c : Cursor} (h : Memory.wf s = true) (hc : Cursor.wf s.cfg.capBits c = true) :
    Memory.wf (s.setCursor a c) = true := by
  obtain ⟨h1, h2, h3, h4⟩ := memory_wf_iff.1 h
  refine memory_wf_iff.2 ⟨h1, by simpa using h2, h3, fun x hx => ?_⟩
  rcases List.mem_or_eq_of_mem_set hx with hx | rfl
  · exact h4 x hx
  · exact hc

/-- Reset leaves the contexts canonical, whatever the parameters. -/
theorem memory_wf_resetFor (cfg : Config) : Memory.wf (State.resetFor cfg) = true := by
  refine memory_wf_iff.2 ⟨by simp [State.resetFor], by simp [State.resetFor], fun k hk => ?_, fun c hc => ?_⟩
  · rw [List.eq_of_mem_replicate hk]; simp [Sink.wf, Sink.empty]
  · rw [List.eq_of_mem_replicate hc]; simp [Cursor.wf, Cursor.invalid]

/-- A sink of a canonical state is canonical. -/
theorem sink_wf {k : Sink} (h : Memory.wf s = true) (hk : s.sink a = some k) : Sink.wf s.cfg.capBits k = true :=
  (memory_wf_iff.1 h).2.2.1 k (List.mem_of_getElem? hk)

/-- A cursor of a canonical state is canonical. -/
theorem cursor_wf {c : Cursor} (h : Memory.wf s = true) (hc : s.cursor a = some c) :
    Cursor.wf s.cfg.capBits c = true :=
  (memory_wf_iff.1 h).2.2.2 c (List.mem_of_getElem? hc)

/-! ### Fault codes and STATUS -/

/-- The word fault entry writes, for each kind (spec/60_exceptions.md R240, R247). -/
theorem statusWord_mem (f : FaultKind) : f.statusWord ∈ legalStatus := by
  cases f <;> decide

@[simp] theorem halted_faultEntry : (s.faultEntry f).halted = true := by
  have : f.statusWord.getLsbD 0 = true := by cases f <;> decide
  simpa [State.halted] using this

@[simp] theorem errCode_faultEntry : (s.faultEntry f).errCode = f.code := by
  have : f.statusWord.extractLsb' 4 4 = f.code := by cases f <;> decide
  simpa [State.errCode] using this

end Sys2Proof.Machine
end

