-- ==== Sys2Proof/Laws/PerInstr.lean ====
section
/-! SUPPORT. Laws/PerInstr.lean: what is proved of every command as syntax, one lemma per constructor: its row of the
opcode map (spec/30_encoding.md R86) has its OP, accepts its reserved fields, has its operand checks and makes it. -/

namespace Sys2Proof.Laws.OpcodeRow

/-- The row of the table at the OP of `i` is the row of `i`. -/
def Statement (i : Instr) : Prop :=
  ∃ r, rowOf i.fields.op = some r ∧ r.reservedOk i.fields = true ∧
    (∀ cfg, (r.ctxa.inRange cfg i.fields.ctxa && r.ctxb.inRange cfg i.fields.ctxb) = i.indexOk cfg) ∧
    (!(r.noAlias && i.fields.ctxa == i.fields.ctxb)) = i.noAlias ∧
    r.need i.fields = i.payloadNeed ∧
    r.make (WSel.ofBits i.fields.wsel) i.fields.ctxa i.fields.ctxb i.fields.imm = i

theorem not_beq (a b : CtxIdx) : (!(a == b)) = decide (a ≠ b) := by
  by_cases h : a = b <;> simp [h]

theorem immOfBit_getLsbD (v : Bool) : (immOfBit v).getLsbD 0 = v := by
  cases v <;> decide

/-- The immediate of a bit value has its reserved bits zero. -/
theorem bit_reservedOk (v : Bool) (op : BitVec 6) (a : CtxIdx) (use : CtxUse) (make : WSel → CtxIdx → Imm → Instr)
    (h : use.zeroIfReserved a = true) :
    (Row.withImm use .bit false false make).reservedOk ⟨op, 0, a, 0, immOfBit v⟩ = true := by
  have hm : ImmUse.bit.reservedZero (immOfBit v) = true := by cases v <;> decide
  have hb : CtxUse.reserved.zeroIfReserved 0#4 = true := by decide
  simp [Row.reservedOk, Row.withImm, h, hm, hb]

theorem nop : Statement .nop := ⟨_, rfl, by decide, fun _ => rfl, rfl, rfl, rfl⟩
theorem snew (a : CtxIdx) : Statement (.snew a) :=
  ⟨_, rfl, rfl, fun _ => Bool.and_true _, rfl, rfl, rfl⟩
theorem spushb (a : CtxIdx) (v : Bool) : Statement (.spushb a v) :=
  ⟨_, rfl, bit_reservedOk v _ a _ _ rfl, fun _ => Bool.and_true _, rfl, rfl,
    congrArg _ (immOfBit_getLsbD v)⟩
theorem sovwr (a : CtxIdx) (v : Bool) : Statement (.sovwr a v) :=
  ⟨_, rfl, bit_reservedOk v _ a _ _ rfl, fun _ => Bool.and_true _, rfl, rfl,
    congrArg _ (immOfBit_getLsbD v)⟩
theorem spushf (w : WSel) (a : CtxIdx) : Statement (.spushf w a) :=
  ⟨_, rfl, rfl, fun _ => Bool.and_true _, rfl, rfl,
    by cases w <;> rfl⟩
theorem spusht (w : WSel) (a : CtxIdx) (n : Imm) : Statement (.spusht w a n) :=
  ⟨_, rfl, rfl, fun _ => Bool.and_true _, rfl, rfl,
    by cases w <;> rfl⟩
theorem spushy (a : CtxIdx) (count : Imm) : Statement (.spushy a count) :=
  ⟨_, rfl, rfl, fun _ => Bool.and_true _, rfl, rfl, rfl⟩
theorem spad (a : CtxIdx) : Statement (.spad a) :=
  ⟨_, rfl, rfl, fun _ => Bool.and_true _, rfl, rfl, rfl⟩
theorem sapps (a b : CtxIdx) : Statement (.sapps a b) :=
  ⟨_, rfl, rfl, fun _ => rfl, not_beq a b, rfl, rfl⟩
theorem sappc (a b : CtxIdx) : Statement (.sappc a b) := ⟨_, rfl, rfl, fun _ => rfl, rfl, rfl, rfl⟩
theorem sfinc (a b : CtxIdx) : Statement (.sfinc a b) := ⟨_, rfl, rfl, fun _ => rfl, rfl, rfl, rfl⟩
theorem sfinb (a : CtxIdx) : Statement (.sfinb a) :=
  ⟨_, rfl, rfl, fun _ => Bool.and_true _, rfl, rfl, rfl⟩
theorem cnewb (a : CtxIdx) (count : Imm) : Statement (.cnewb a count) :=
  ⟨_, rfl, rfl, fun _ => Bool.and_true _, rfl, rfl, rfl⟩
theorem crdb (a : CtxIdx) : Statement (.crdb a) :=
  ⟨_, rfl, rfl, fun _ => Bool.and_true _, rfl, rfl, rfl⟩
theorem crdf (w : WSel) (a : CtxIdx) : Statement (.crdf w a) :=
  ⟨_, rfl, rfl, fun _ => Bool.and_true _, rfl, rfl,
    by cases w <;> rfl⟩
theorem crdt (w : WSel) (a : CtxIdx) (n : Imm) : Statement (.crdt w a n) :=
  ⟨_, rfl, rfl, fun _ => Bool.and_true _, rfl, rfl,
    by cases w <;> rfl⟩
theorem crdy (a : CtxIdx) (count : Imm) : Statement (.crdy a count) :=
  ⟨_, rfl, rfl, fun _ => Bool.and_true _, rfl, rfl, rfl⟩
theorem crem (a : CtxIdx) : Statement (.crem a) :=
  ⟨_, rfl, rfl, fun _ => Bool.and_true _, rfl, rfl, rfl⟩
theorem ctot (a : CtxIdx) : Statement (.ctot a) :=
  ⟨_, rfl, rfl, fun _ => Bool.and_true _, rfl, rfl, rfl⟩
theorem cexh (a : CtxIdx) : Statement (.cexh a) :=
  ⟨_, rfl, rfl, fun _ => Bool.and_true _, rfl, rfl, rfl⟩
theorem csplt (a b : CtxIdx) : Statement (.csplt a b) :=
  ⟨_, rfl, rfl, fun _ => rfl, not_beq a b, rfl, rfl⟩
theorem cbytes (a : CtxIdx) : Statement (.cbytes a) :=
  ⟨_, rfl, rfl, fun _ => Bool.and_true _, rfl, rfl, rfl⟩
theorem srst : Statement .srst := ⟨_, rfl, by decide, fun _ => rfl, rfl, rfl, rfl⟩

end Sys2Proof.Laws.OpcodeRow
end

