-- ==== Sys2Proof/Laws/Step.lean ====
section
/-! SUPPORT. Laws/Step.lean: what `exec` and `step` can do, said once. -/

namespace Sys2Proof.Machine

variable {s t : State} {i : Instr} {c : Command} {rest : List HostEvent}

/-- Every command but SRST is `perform` of some body: with `perform_cases`, all that `exec` can answer. -/
theorem exec_eq_perform (hi : i ≠ .srst) (h : exec i s = .next t) : ∃ body : Effect, s.perform i body = .next t := by
  cases i with
  | srst => exact absurd rfl hi
  | nop => exact ⟨.ok (s, []), h⟩
  | snew a => exact ⟨.ok (s.setSink a Sink.empty, []), h⟩
  | _ => exact ⟨_, h⟩

/-- The command at the head of the channel is the one in progress. -/
theorem current_of_chan (h : s.chan = .command c :: rest) : s.current = c := by
  simp [State.current, h]

theorem payload_of_chan (h : s.chan = .command c :: rest) : s.payload = c.payload := by
  rw [State.payload, current_of_chan h]

theorem cmdWord_of_chan (h : s.chan = .command c :: rest) : s.cmdWord = c.word := by
  rw [State.cmdWord, current_of_chan h]

theorem step_command (h : s.chan = .command c :: rest) : step s = closing (answerCommand c s) := by
  simp [step, h]

theorem isAcceptedSrst_iff : isAcceptedSrst c = true ↔ c.word = 0x0000003F ∧ c.payload = [] := by
  simp [isAcceptedSrst]

theorem closing_eq_next {o : Outcome} : closing o = .next t ↔ ∃ u, o = .next u ∧ t = u.closeHead := by
  cases o <;> simp [closing, eq_comm]

end Sys2Proof.Machine
end

