-- ==== Sys2Proof/Tests/Slice0.lean ====
section
/-! SUPPORT. Tests/Slice0.lean: smoke tests of WellFormed, decode words written out from spec/30_encoding.md, one-step
tests whose expected values are vectors of spec/95_test_vectors.md, and a witness for the hypotheses of every
statement that has some. -/

namespace Sys2Proof.Tests.Slice0

open Sys2Proof Sys2Proof.Machine

/-! ### WellFormed: each check refuses an ill-formed term (R7, R8, R84, R89, R90), with NS = NC = 4 -/

theorem test_wf_config : resetConfig.wf = true := by decide
theorem test_wf_config_ns_zero : ({ resetConfig with ns := 0 } : Config).wf = false := by decide
theorem test_wf_config_ns_large : ({ resetConfig with ns := 17 } : Config).wf = false := by decide
theorem test_wf_config_nc_zero : ({ resetConfig with nc := 0 } : Config).wf = false := by decide
theorem test_wf_config_nc_large : ({ resetConfig with nc := 17 } : Config).wf = false := by decide
theorem test_wf_config_cap_mod : ({ resetConfig with capBits := 12 } : Config).wf = false := by decide
theorem test_wf_config_cap_zero : ({ resetConfig with capBits := 0 } : Config).wf = false := by decide
theorem test_wf_config_cap_large : ({ resetConfig with capBits := 2 ^ 32 } : Config).wf = false := by decide
theorem test_wf_sink_index : (Instr.snew 4).wf resetConfig = false ∧ (Instr.snew 3).wf resetConfig = true := by decide
theorem test_wf_cursor_index : (Instr.crdb 4).wf resetConfig = false ∧ (Instr.crdb 3).wf resetConfig = true := by
  decide
theorem test_wf_sapps_index : (Instr.sapps 4 0).wf resetConfig = false ∧ (Instr.sapps 0 4).wf resetConfig = false := by
  decide
theorem test_wf_sappc_index : (Instr.sappc 4 0).wf resetConfig = false ∧ (Instr.sfinc 0 4).wf resetConfig = false := by
  decide
theorem test_wf_csplt_index : (Instr.csplt 4 0).wf resetConfig = false ∧ (Instr.csplt 0 4).wf resetConfig = false := by
  decide
theorem test_wf_sapps_alias : (Instr.sapps 1 1).wf resetConfig = false := by decide
theorem test_wf_csplt_alias : (Instr.csplt 1 1).wf resetConfig = false := by decide
theorem test_wf_sappc_same_number : (Instr.sappc 1 1).wf resetConfig = true := by decide
theorem test_wf_payload : (Instr.spushy 0 2).legal resetConfig 1 = false ∧ (Instr.spushy 0 2).legal resetConfig 2 = true := by
  decide
theorem test_wf_no_payload : (Instr.nop).legal resetConfig 1 = false ∧ (Instr.cnewb 0 0).legal resetConfig 0 = true := by
  decide

/-! ### Decode: IMM, CTXB, CTXA, WSEL, OP written out bit by bit, one word per command (R81, R86) -/

theorem test_decode_nop : decodeTableWord 32 0b0000000000000000_0000_0000_00_000000 = some .nop := by decide
theorem test_decode_snew : decodeTableWord 32 0b0000000000000000_0000_0011_00_000001 = some (.snew 3) := by decide
theorem test_decode_spushb : decodeTableWord 32 0b0000000000000001_0000_0010_00_000010 = some (.spushb 2 true) := by
  decide
theorem test_decode_sovwr : decodeTableWord 32 0b0000000000000001_0000_0001_00_000011 = some (.sovwr 1 true) := by decide
theorem test_decode_spushf : decodeTableWord 32 0b0000000000000000_0000_0001_10_000100 = some (.spushf .w32 1) := by
  decide
theorem test_decode_spusht : decodeTableWord 32 0b0000000000001100_0000_0011_01_000101 = some (.spusht .w16 3 12) := by
  decide
theorem test_decode_spushy : decodeTableWord 32 0b0000000000000010_0000_0001_00_000110 = some (.spushy 1 2) := by decide
theorem test_decode_spad : decodeTableWord 32 0b0000000000000000_0000_0010_00_000111 = some (.spad 2) := by decide
theorem test_decode_sapps : decodeTableWord 32 0b0000000000000000_0001_0010_00_001000 = some (.sapps 2 1) := by decide
theorem test_decode_sappc : decodeTableWord 32 0b0000000000000000_0011_0010_00_001001 = some (.sappc 2 3) := by decide
theorem test_decode_sfinc : decodeTableWord 32 0b0000000000000000_0010_0001_00_001010 = some (.sfinc 1 2) := by decide
theorem test_decode_sfinb : decodeTableWord 32 0b0000000000000000_0000_0001_00_001011 = some (.sfinb 1) := by decide
theorem test_decode_cnewb : decodeTableWord 32 0b0000000000000011_0000_0001_00_010000 = some (.cnewb 1 3) := by decide
theorem test_decode_crdb : decodeTableWord 32 0b0000000000000000_0000_0011_00_010001 = some (.crdb 3) := by decide
theorem test_decode_crdf : decodeTableWord 32 0b0000000000000000_0000_0010_11_010010 = some (.crdf .wW 2) := by decide
theorem test_decode_crdt : decodeTableWord 32 0b0000000000000101_0000_0010_00_010011 = some (.crdt .w8 2 5) := by decide
theorem test_decode_crdy : decodeTableWord 32 0b0000000000000010_0000_0001_00_010100 = some (.crdy 1 2) := by decide
theorem test_decode_crem : decodeTableWord 32 0b0000000000000000_0000_0001_00_010101 = some (.crem 1) := by decide
theorem test_decode_ctot : decodeTableWord 32 0b0000000000000000_0000_0001_00_010110 = some (.ctot 1) := by decide
theorem test_decode_cexh : decodeTableWord 32 0b0000000000000000_0000_0001_00_010111 = some (.cexh 1) := by decide
theorem test_decode_csplt : decodeTableWord 32 0b0000000000000000_0001_0011_00_011000 = some (.csplt 3 1) := by decide
theorem test_decode_cbytes : decodeTableWord 32 0b0000000000000000_0000_0001_00_011001 = some (.cbytes 1) := by decide
theorem test_decode_srst : decodeTableWord 32 0b0000000000000000_0000_0000_00_111111 = some .srst := by decide

/-- Reserved bits, undefined OP values, indexes and aliases are refused (vectors X2 to X6, X10, S19, K15). -/
theorem test_decode_refusals :
    decodeTableWord 32 0x00000100 = none ∧ decodeTableWord 32 0x0000003E = none ∧
    decodeTableWord 32 0x00000041 = none ∧ decodeTableWord 32 0x00000501 = none ∧
    decodeTableWord 32 0x00020002 = none ∧ decodeTableWord 32 0x0000013F = none ∧
    decodeTableWord 32 0x00000008 = none ∧ decodeTableWord 32 0x00000018 = none := by decide

/-- A payload of the wrong length is refused (vector K17). -/
theorem test_decode_payload :
    Command.decode resetConfig ⟨0x00020010, 0, [0xB4]⟩ = .error .payloadLength := by rfl

/-! ### One-step tests -/

/-- The state of a sink as the vectors write it. -/
structure SinkView where
  st : SinkStatus
  len : Nat
  image : List Byte
deriving DecidableEq, Repr

/-- The state of a cursor as the vectors write it. -/
structure CursorView where
  valid : Bool
  len : Nat
  off : Nat
  image : List Byte
deriving DecidableEq, Repr

def sinkView (t : State) (a : CtxIdx) : Option SinkView :=
  (t.sink a).map fun k => ⟨k.st, k.seq.length, seqToBytes k.seq⟩

def cursorView (t : State) (a : CtxIdx) : Option CursorView :=
  (t.cursor a).map fun c => ⟨c.valid, c.seq.length, c.off, seqToBytes c.seq⟩

/-- A view of the state after command `c` issued in state `s`. -/
def after {α : Type} (c : Command) (s : State) (view : State → α) : Option α :=
  (nextState? (issue c s)).map view

/-- The reset state with the sequence `q` in sink 0. -/
def sink0 (q : Bits) : State :=
  { State.reset with sinks := [⟨.active, q⟩, Sink.empty, Sink.empty, Sink.empty] }

/-- The reset state with sink 0 FINALIZED. -/
def sink0Finalized : State :=
  { State.reset with sinks := [Sink.consumed, Sink.empty, Sink.empty, Sink.empty] }

/-- The reset state with a cursor over `B` at offset `off` in cursor 0. -/
def cursor0 (B : List Byte) (off : Nat) : State :=
  { State.reset with cursors := [⟨true, bytesToSeq B, off⟩, Cursor.invalid, Cursor.invalid, Cursor.invalid] }

/-- The response of a state. -/
def resp (t : State) : Option Reply :=
  t.reply

/-- Vector X1. -/
theorem test_nop : after ⟨0x00000000, 0, []⟩ State.reset resp = some (some (.response ⟨0, 0, []⟩)) := by decide
/-- Vector S1. -/
theorem test_snew : after ⟨0x00000001, 0, []⟩ sink0Finalized (sinkView · 0) = some (some ⟨.active, 0, []⟩) := by decide
/-- Vector S2. -/
theorem test_spushb : after ⟨0x00010002, 0, []⟩ (sink0 [false, false]) (sinkView · 0) =
    some (some ⟨.active, 3, [0x04]⟩) := by decide
/-- Vector X6: decode comes before the context check. -/
theorem test_spushb_reserved : after ⟨0x00020002, 0, []⟩ sink0Finalized (·.status) = some 0x31 := by decide
/-- W2, step 4. -/
theorem test_sovwr : after ⟨0x00010003, 0, []⟩ (sink0 [false, false, true]) (sinkView · 0) =
    some (some ⟨.active, 3, [0x05]⟩) := by decide
/-- Vectors S4 and S5: BOUNDS at idx = len and at 2^64 − 1. -/
theorem test_sovwr_bounds :
    after ⟨0x00010003, 1, []⟩ (sink0 [true]) (fun t => (t.status, t.fcmd)) = some (0x11, 0x00010003) ∧
    after ⟨0x00010003, 0xFFFFFFFFFFFFFFFF, []⟩ State.reset (·.status) = some 0x11 := by decide
/-- Vector S7: little-endian, misaligned. -/
theorem test_spushf : after ⟨0x00000044, 0x1234, []⟩ (sink0 [true, false, true]) (sinkView · 0) =
    some (some ⟨.active, 19, [0xA5, 0x91, 0x00]⟩) := by decide
/-- Vector S8: DIN above the width is ignored. -/
theorem test_spushf_din : after ⟨0x00000004, 0x1FF, []⟩ State.reset (sinkView · 0) =
    some (some ⟨.active, 8, [0xFF]⟩) := by decide
/-- Vector S12. -/
theorem test_spusht : after ⟨0x000C0045, 0xABCD, []⟩ State.reset (sinkView · 0) =
    some (some ⟨.active, 12, [0xCD, 0x0B]⟩) := by decide
/-- Vectors S14 and X7: WIDTH, and CTX_STATE before it. -/
theorem test_spusht_width : after ⟨0x00090005, 0xFF, []⟩ (sink0 [true]) (·.status) = some 0x21 ∧
    after ⟨0x00090005, 0, []⟩ sink0Finalized (·.status) = some 0x41 := by decide
/-- Vector S9. -/
theorem test_spushy : after ⟨0x00020006, 0, [0xDE, 0xAD]⟩ (sink0 [true]) (sinkView · 0) =
    some (some ⟨.active, 17, [0xBD, 0x5B, 0x01]⟩) := by decide
/-- Vector S26: CAPACITY. -/
theorem test_spushy_capacity : after ⟨0x00020006, 0, [0x01, 0x02]⟩
    { sink0 [true] with cfg := { resetConfig with capBits := 16 } } (fun t => (t.status, sinkView t 0)) =
    some (0x51, some ⟨.active, 1, [0x01]⟩) := by decide
/-- Vector S17, third and fourth commands. -/
theorem test_spad : after ⟨0x00000007, 0, []⟩ (sink0 [true]) (sinkView · 0) = some (some ⟨.active, 8, [0x01]⟩) ∧
    after ⟨0x00000007, 0, []⟩ (sink0 (bitsOf 1 8)) (sinkView · 0) = some (some ⟨.active, 8, [0x01]⟩) := by decide
/-- Vector S18. -/
theorem test_sapps : after ⟨0x00001008, 0, []⟩
    { State.reset with sinks := [⟨.active, [true, false, true]⟩, ⟨.active, bitsOf 0xFF 8⟩, Sink.empty, Sink.empty] }
    (fun t => (sinkView t 0, sinkView t 1)) =
    some (some ⟨.active, 11, [0xFD, 0x07]⟩, some ⟨.active, 8, [0xFF]⟩) := by decide
/-- Vector S20: the bits already read are copied too. -/
theorem test_sappc : after ⟨0x00000109, 0, []⟩ (cursor0 [0xB4] 3) (fun t => (sinkView t 1, cursorView t 0)) =
    some (some ⟨.active, 8, [0xB4]⟩, some ⟨true, 8, 3, [0xB4]⟩) := by decide
/-- Vector S21: CTX_STATE. -/
theorem test_sappc_invalid : after ⟨0x00000109, 0, []⟩ State.reset (fun t => (t.status, t.fcmd)) =
    some (0x41, 0x00000109) := by decide
/-- W1, step 4. -/
theorem test_sfinc : after ⟨0x0000000A, 0, []⟩ (sink0 [false, true, true, true, false, false, false, false, true])
    (fun t => (cursorView t 0, sinkView t 0)) =
    some (some ⟨true, 9, 0, [0x0E, 0x01]⟩, some ⟨.finalized, 0, []⟩) := by decide
/-- Vector S23. -/
theorem test_sfinb : after ⟨0x0000000B, 0, []⟩ (sink0 [false, true, true, true, false, false, false, false, true])
    (fun t => (resp t, sinkView t 0)) =
    some (some (.response ⟨0, 0, [0x0E, 0x01]⟩), some ⟨.finalized, 0, []⟩) := by decide
/-- Vector K1, first command. -/
theorem test_cnewb : after ⟨0x00040010, 0, [0x78, 0x56, 0x34, 0x12]⟩ State.reset (cursorView · 0) =
    some (some ⟨true, 32, 0, [0x78, 0x56, 0x34, 0x12]⟩) := by decide
/-- Vector K19: CAPACITY. -/
theorem test_cnewb_capacity : after ⟨0x00030010, 0, [0x01, 0x02, 0x03]⟩
    { State.reset with cfg := { resetConfig with capBits := 16 } } (fun t => (t.status, cursorView t 0)) =
    some (0x51, some ⟨false, 0, 0, []⟩) := by decide
/-- Vector K2, third command. -/
theorem test_crdb : after ⟨0x00000011, 0, []⟩ (cursor0 [0xB4] 2) (fun t => (t.dout, cursorView t 0)) =
    some (1, some ⟨true, 8, 3, [0xB4]⟩) := by decide
/-- Vector K10: CTX_STATE. -/
theorem test_crdb_invalid : after ⟨0x00000011, 0, []⟩ State.reset (·.status) = some 0x41 := by decide
/-- Vector K12, third command: misaligned. -/
theorem test_crdf : after ⟨0x00000052, 0, []⟩ (cursor0 [0x3C, 0xA5, 0x0F] 4) (fun t => (t.dout, cursorView t 0)) =
    some (0xFA53, some ⟨true, 24, 20, [0x3C, 0xA5, 0x0F]⟩) := by decide
/-- Vector K8: BOUNDS reads nothing and keeps DOUT. -/
theorem test_crdf_bounds : after ⟨0x00000012, 0, []⟩ { cursor0 [0xB4] 3 with dout := 8 }
    (fun t => (resp t, cursorView t 0)) =
    some (some (.response ⟨0x11, 8, []⟩), some ⟨true, 8, 3, [0xB4]⟩) := by decide
/-- Vector K3, first command. -/
theorem test_crdt : after ⟨0x00030013, 0, []⟩ (cursor0 [0xB4] 0) (fun t => (t.dout, cursorView t 0)) =
    some (4, some ⟨true, 8, 3, [0xB4]⟩) := by decide
/-- Vector K9: WIDTH before BOUNDS. -/
theorem test_crdt_width : after ⟨0x00090013, 0, []⟩ (cursor0 [0xB4] 0) (·.status) = some 0x21 := by decide
/-- Vector K5, second command. -/
theorem test_crdy : after ⟨0x00020014, 0, []⟩ { cursor0 [0xBD, 0x5B, 0x01] 1 with dout := 1 } resp =
    some (some (.response ⟨0, 1, [0xDE, 0xAD]⟩)) := by decide
/-- Vector K3, second command. -/
theorem test_crem : after ⟨0x00000015, 0, []⟩ (cursor0 [0xB4] 3) (·.dout) = some 5 := by decide
/-- Vector K3, third command. -/
theorem test_ctot : after ⟨0x00000016, 0, []⟩ (cursor0 [0xB4] 3) (·.dout) = some 8 := by decide
/-- Vectors K1 and K14: exhausted; and not exhausted. -/
theorem test_cexh : after ⟨0x00000017, 0, []⟩ (cursor0 [0xB4] 8) (·.dout) = some 1 ∧
    after ⟨0x00000017, 0, []⟩ (cursor0 [0xB4] 7) (·.dout) = some 0 := by decide
/-- Vector K4, first command. -/
theorem test_csplt : after ⟨0x00001018, 0, []⟩ (cursor0 [0xB4] 3) (fun t => (cursorView t 1, cursorView t 0)) =
    some (some ⟨true, 5, 0, [0x16]⟩, some ⟨true, 8, 3, [0xB4]⟩) := by decide
/-- Vector K18, second command: the whole view. -/
theorem test_cbytes : after ⟨0x00000019, 0, []⟩ (cursor0 [0x0E, 0x01] 1) resp =
    some (some (.response ⟨0, 0, [0x0E, 0x01]⟩)) := by decide

/-- The state of vector X8 after its second command: halted on ILLEGAL_CMD. -/
def haltedState : State :=
  { sink0 [false] with status := 0x31, fcmd := 0x0000003E }

/-- Vector X8: SRST leaves the halt. -/
theorem test_srst : after ⟨0x0000003F, 0, []⟩ haltedState (fun t => (t.status, t.fcmd, sinkView t 0)) =
    some (0, 0, some ⟨.active, 0, []⟩) := by decide
/-- Vector X8: SRST with a payload is not performed. -/
theorem test_srst_payload : after ⟨0x0000003F, 0, [0x01]⟩ haltedState (fun t => (resp t, t.fcmd)) =
    some (some (.response ⟨0x31, 0, []⟩), 0x0000003E) := by decide
/-- Vector X11: the reset input. -/
theorem test_reset_input : (nextState? (step (haltedState.offering .resetInput))).map
    (fun t => (t.status, t.fcmd, t.dout, t.faultO)) = some (0, 0, 0, false) := by decide
/-- Vectors X12 and X13: CFG, CAPR and an unused address. -/
theorem test_register_port :
    (State.reset.readPort 0x10, State.reset.readPort 0x14, State.reset.readPort 0x18) =
      (0x01400404, 0x00010000, 0) ∧
    ({ State.reset with cfg := { resetConfig with wordW := .w32 } } : State).readPort 0x10 = 0x01200404 := by decide
/-- Vectors V4 and V5. -/
theorem test_render : render [','] (bytesToSeq [0xB4]) = ['1', '0', '1', '1', '0', '1', '0', '0'] ∧
    render [','] [true, false, true] = ['.', '.', '.', '.', '.', '1', '0', '1'] := by decide
/-- A line of program P2 (spec/95_test_vectors.md) and its word. -/
theorem test_asm : (AsmLine.spusht .w16 0 0xBCD 12).text = "SPUSHT.16 s0, 3021, 12" ∧
    assemble (.spusht .w16 0 0xBCD 12) = ⟨0x000C0045, 0xBCD, []⟩ := by decide

/-! ### Witnesses: for every statement with hypotheses, states and operands that meet all of them together, clause by
clause and at the boundary of each range. The block is small: NS = NC = 2, CAP_BITS = 8. -/

/-- A block with two sinks, two cursors and 8 bits of capacity. -/
def tiny : Config := { wordW := .w64, ns := 2, nc := 2, capBits := 8 }

/-- A tiny block with sinks `k0` and `k1` and cursor 0 `c0`, on which `cmd` is in progress. -/
def block (k0 k1 : Sink) (c0 : Cursor) (cmd : Command) : State :=
  { State.resetFor tiny with sinks := [k0, k1], cursors := [c0, Cursor.invalid], chan := [.command cmd] }

/-- An ACTIVE sink of n zero bits. -/
def zeros (n : Nat) : Sink := ⟨.active, List.replicate n false⟩

/-- A cursor over n zero bits at offset off. -/
def view (n off : Nat) : Cursor := ⟨true, List.replicate n false, off⟩

/-- `block` with an instruction that takes no payload. -/
def blockFor (i : Instr) (din : DataWord) (k0 k1 : Sink) (c0 : Cursor) : State :=
  block k0 k1 c0 ⟨encode i, din, []⟩

/-- The block accepts `i`, and sink 0 and cursor 0 are as given. -/
def Ready (i : Instr) (s : State) (k : Sink) (c : Cursor) : Prop :=
  s.accepts i = true ∧ s.sink 0 = some k ∧ s.cursor 0 = some c

/-- The tiny block meets the invariant after reset. -/
theorem tiny_inv : (State.resetFor tiny).Inv :=
  ⟨by decide, by decide, by decide, by decide, by decide⟩

/-- The reset state meets the invariant (with `tiny_inv`, the witness of ResetSatisfiesTheInvariant). -/
theorem reset_inv : State.reset.Inv :=
  ⟨by decide, by decide, by decide, by decide, by decide⟩

/-- A halted tiny block with `e` in progress. -/
def haltedBlock (e : HostEvent) : State :=
  { State.resetFor tiny with status := 0x11, fcmd := 0x00000011, chan := [e] }

theorem witness_NopDoesNothing :
    ((0x00000100 : Word32).extractLsb' 0 6 = 0#6 ∧ (0x00000100 : Word32) ≠ 0) ∧
    (blockFor .nop 0 (zeros 0) (zeros 0) Cursor.invalid).accepts .nop = true ∧
    (haltedBlock (.command ⟨0, 0, []⟩)).halted = true := by decide

theorem witness_SrstResetsTheBlock :
    ((0x0000013F : Word32).extractLsb' 0 6 = 0x3F#6 ∧ (0x0000013F : Word32) ≠ 0x0000003F) ∧
    (haltedBlock (.command ⟨0x3F, 0, []⟩)).payload = [] ∧
    ((block (zeros 0) (zeros 0) Cursor.invalid ⟨0x3F, 0, [1]⟩).payload ≠ [] ∧
      (block (zeros 0) (zeros 0) Cursor.invalid ⟨0x3F, 0, [1]⟩).halted = false) ∧
    ((haltedBlock (.command ⟨0x3F, 0, [1]⟩)).payload ≠ [] ∧
      (haltedBlock (.command ⟨0x3F, 0, [1]⟩)).halted = true) := by decide

theorem witness_SnewCreatesAnEmptySink :
    (blockFor (.snew 1) 0 (zeros 8) Sink.consumed Cursor.invalid).accepts (.snew 1) = true := by decide

/-- CTX_STATE; CAPACITY at 8 + 1; success at 7 + 1. -/
theorem witness_SpushbAppendsOneBit :
    Ready (.spushb 0 true) (blockFor (.spushb 0 true) 0 Sink.consumed (zeros 0) Cursor.invalid)
      ⟨.finalized, []⟩ Cursor.invalid ∧
    Ready (.spushb 0 true) (blockFor (.spushb 0 true) 0 (zeros 8) (zeros 0) Cursor.invalid) (zeros 8) Cursor.invalid ∧
    Ready (.spushb 0 true) (blockFor (.spushb 0 true) 0 (zeros 7) (zeros 0) Cursor.invalid) (zeros 7) Cursor.invalid := by
  unfold Ready; decide

/-- CTX_STATE; BOUNDS at DIN = len = 3; success at DIN = 2. -/
theorem witness_SovwrOverwritesOneBit :
    Ready (.sovwr 0 true) (blockFor (.sovwr 0 true) 0 Sink.consumed (zeros 0) Cursor.invalid)
      ⟨.finalized, []⟩ Cursor.invalid ∧
    (Ready (.sovwr 0 true) (blockFor (.sovwr 0 true) 3 (zeros 3) (zeros 0) Cursor.invalid) (zeros 3) Cursor.invalid ∧
      (zeros 3).seq.length ≤ (blockFor (.sovwr 0 true) 3 (zeros 3) (zeros 0) Cursor.invalid).din) ∧
    (Ready (.sovwr 0 true) (blockFor (.sovwr 0 true) 2 (zeros 3) (zeros 0) Cursor.invalid) (zeros 3) Cursor.invalid ∧
      (blockFor (.sovwr 0 true) 2 (zeros 3) (zeros 0) Cursor.invalid).din < (zeros 3).seq.length) := by
  unfold Ready; decide

/-- CTX_STATE; CAPACITY at 1 + 8; success at 0 + 8. -/
theorem witness_SpushfAppendsAField :
    Ready (.spushf .w8 0) (blockFor (.spushf .w8 0) 0 Sink.consumed (zeros 0) Cursor.invalid)
      ⟨.finalized, []⟩ Cursor.invalid ∧
    (Ready (.spushf .w8 0) (blockFor (.spushf .w8 0) 5 (zeros 1) (zeros 0) Cursor.invalid) (zeros 1) Cursor.invalid ∧
      8 < 1 + (blockFor (.spushf .w8 0) 5 (zeros 1) (zeros 0) Cursor.invalid).fieldWidth .w8) ∧
    (Ready (.spushf .w8 0) (blockFor (.spushf .w8 0) 5 (zeros 0) (zeros 0) Cursor.invalid) (zeros 0) Cursor.invalid ∧
      0 + (blockFor (.spushf .w8 0) 5 (zeros 0) (zeros 0) Cursor.invalid).fieldWidth .w8 ≤ 8) := by
  unfold Ready; decide

/-- CTX_STATE; WIDTH at b = 9; CAPACITY at b = 8 and len 1; success at b = 8 and len 0. -/
theorem witness_SpushtAppendsLowBits :
    Ready (.spusht .w8 0 3) (blockFor (.spusht .w8 0 3) 0 Sink.consumed (zeros 0) Cursor.invalid)
      ⟨.finalized, []⟩ Cursor.invalid ∧
    (Ready (.spusht .w8 0 9) (blockFor (.spusht .w8 0 9) 5 (zeros 1) (zeros 0) Cursor.invalid) (zeros 1) Cursor.invalid ∧
      (blockFor (.spusht .w8 0 9) 5 (zeros 1) (zeros 0) Cursor.invalid).fieldWidth .w8 < (9 : Imm).toNat) ∧
    (Ready (.spusht .w8 0 8) (blockFor (.spusht .w8 0 8) 5 (zeros 1) (zeros 0) Cursor.invalid) (zeros 1) Cursor.invalid ∧
      (8 : Imm).toNat ≤ (blockFor (.spusht .w8 0 8) 5 (zeros 1) (zeros 0) Cursor.invalid).fieldWidth .w8) ∧
    Ready (.spusht .w8 0 8) (blockFor (.spusht .w8 0 8) 5 (zeros 0) (zeros 0) Cursor.invalid) (zeros 0) Cursor.invalid := by
  unfold Ready; decide

/-- Wrong payload length; CTX_STATE; CAPACITY at 1 + 8; success at 0 + 8. -/
theorem witness_SpushyAppendsBytes :
    ((0 : CtxIdx).toNat < tiny.ns ∧ 1 ≠ (2 : Imm).toNat) ∧
    Ready (.spushy 0 1) (block Sink.consumed (zeros 0) Cursor.invalid ⟨encode (.spushy 0 1), 0, [7]⟩)
      ⟨.finalized, []⟩ Cursor.invalid ∧
    Ready (.spushy 0 1) (block (zeros 1) (zeros 0) Cursor.invalid ⟨encode (.spushy 0 1), 0, [7]⟩)
      (zeros 1) Cursor.invalid ∧
    Ready (.spushy 0 1) (block (zeros 0) (zeros 0) Cursor.invalid ⟨encode (.spushy 0 1), 0, [7]⟩)
      (zeros 0) Cursor.invalid := by
  unfold Ready; decide

/-- CTX_STATE; lengths 0, 1 and 8. The invariant that bounds the result is met too. -/
theorem witness_SpadPadsToAByte :
    Ready (.spad 0) (blockFor (.spad 0) 0 Sink.consumed (zeros 0) Cursor.invalid) ⟨.finalized, []⟩ Cursor.invalid ∧
    Ready (.spad 0) (blockFor (.spad 0) 0 (zeros 1) (zeros 0) Cursor.invalid) (zeros 1) Cursor.invalid ∧
    Ready (.spad 0) (blockFor (.spad 0) 0 (zeros 8) (zeros 0) Cursor.invalid) (zeros 8) Cursor.invalid ∧
    (blockFor (.spad 0) 0 (zeros 1) (zeros 0) Cursor.invalid).Inv := by
  unfold Ready; exact ⟨by decide, by decide, by decide, by decide, by decide, by decide, by decide, by decide⟩

/-- The alias; CTX_STATE for each of the two; CAPACITY at 4 + 5; success at 4 + 4. -/
theorem witness_SappsAppendsASink :
    (0 : CtxIdx).toNat < tiny.ns ∧
    Ready (.sapps 0 1) (blockFor (.sapps 0 1) 0 Sink.consumed (zeros 0) Cursor.invalid) ⟨.finalized, []⟩ Cursor.invalid ∧
    (Ready (.sapps 0 1) (blockFor (.sapps 0 1) 0 (zeros 4) Sink.consumed Cursor.invalid) (zeros 4) Cursor.invalid ∧
      (blockFor (.sapps 0 1) 0 (zeros 4) Sink.consumed Cursor.invalid).sink 1 = some ⟨.finalized, []⟩) ∧
    (Ready (.sapps 0 1) (blockFor (.sapps 0 1) 0 (zeros 4) (zeros 5) Cursor.invalid) (zeros 4) Cursor.invalid ∧
      (blockFor (.sapps 0 1) 0 (zeros 4) (zeros 5) Cursor.invalid).sink 1 = some (zeros 5)) ∧
    (Ready (.sapps 0 1) (blockFor (.sapps 0 1) 0 (zeros 4) (zeros 4) Cursor.invalid) (zeros 4) Cursor.invalid ∧
      (blockFor (.sapps 0 1) 0 (zeros 4) (zeros 4) Cursor.invalid).sink 1 = some (zeros 4)) := by
  unfold Ready; decide

/-- CTX_STATE for each of the two; CAPACITY at 4 + 5; success at 4 + 4, with a nonzero offset. -/
theorem witness_SappcAppendsAWholeView :
    Ready (.sappc 0 0) (blockFor (.sappc 0 0) 0 Sink.consumed (zeros 0) (view 4 1)) ⟨.finalized, []⟩ (view 4 1) ∧
    Ready (.sappc 0 0) (blockFor (.sappc 0 0) 0 (zeros 4) (zeros 0) Cursor.invalid) (zeros 4) ⟨false, [], 0⟩ ∧
    Ready (.sappc 0 0) (blockFor (.sappc 0 0) 0 (zeros 4) (zeros 0) (view 5 1)) (zeros 4) ⟨true, List.replicate 5 false, 1⟩ ∧
    Ready (.sappc 0 0) (blockFor (.sappc 0 0) 0 (zeros 4) (zeros 0) (view 4 1)) (zeros 4) ⟨true, List.replicate 4 false, 1⟩ := by
  unfold Ready; decide

theorem witness_SfincFinalizesToACursor :
    Ready (.sfinc 0 0) (blockFor (.sfinc 0 0) 0 Sink.consumed (zeros 0) (view 4 1)) ⟨.finalized, []⟩ (view 4 1) ∧
    Ready (.sfinc 0 0) (blockFor (.sfinc 0 0) 0 (zeros 8) (zeros 0) (view 4 1)) (zeros 8) (view 4 1) := by
  unfold Ready; decide

theorem witness_SfinbFinalizesToBytes :
    Ready (.sfinb 0) (blockFor (.sfinb 0) 0 Sink.consumed (zeros 0) Cursor.invalid) ⟨.finalized, []⟩ Cursor.invalid ∧
    Ready (.sfinb 0) (blockFor (.sfinb 0) 0 (zeros 3) (zeros 0) Cursor.invalid) (zeros 3) Cursor.invalid := by
  unfold Ready; decide

/-- Wrong payload length; CAPACITY at 16 bits; success at 8 bits. -/
theorem witness_CnewbConstructsACursor :
    ((0 : CtxIdx).toNat < tiny.nc ∧ 1 ≠ (2 : Imm).toNat) ∧
    ((block (zeros 0) (zeros 0) (view 4 1) ⟨encode (.cnewb 0 2), 0, [7, 8]⟩).accepts (.cnewb 0 2) = true ∧
      tiny.capBits < 8 * (2 : Imm).toNat) ∧
    ((block (zeros 0) (zeros 0) (view 4 1) ⟨encode (.cnewb 0 1), 0, [7]⟩).accepts (.cnewb 0 1) = true ∧
      8 * (1 : Imm).toNat ≤ tiny.capBits) := by decide

/-- CTX_STATE; BOUNDS at off = len; success at off = len − 1. -/
theorem witness_CrdbReadsOneBit :
    Ready (.crdb 0) (blockFor (.crdb 0) 0 (zeros 0) (zeros 0) Cursor.invalid) (zeros 0) ⟨false, [], 0⟩ ∧
    Ready (.crdb 0) (blockFor (.crdb 0) 0 (zeros 0) (zeros 0) (view 8 8)) (zeros 0) (view 8 8) ∧
    (Ready (.crdb 0) (blockFor (.crdb 0) 0 (zeros 0) (zeros 0) (view 8 7)) (zeros 0) (view 8 7) ∧
      (view 8 7).seq[(view 8 7).off]? = some false) := by
  unfold Ready; decide

/-- CTX_STATE; BOUNDS at off = 1; success at off = 0, with N = 8 = len. -/
theorem witness_CrdfReadsAField :
    Ready (.crdf .w8 0) (blockFor (.crdf .w8 0) 0 (zeros 0) (zeros 0) Cursor.invalid) (zeros 0) ⟨false, [], 0⟩ ∧
    (Ready (.crdf .w8 0) (blockFor (.crdf .w8 0) 0 (zeros 0) (zeros 0) (view 8 1)) (zeros 0) (view 8 1) ∧
      8 < 1 + (blockFor (.crdf .w8 0) 0 (zeros 0) (zeros 0) (view 8 1)).fieldWidth .w8) ∧
    (Ready (.crdf .w8 0) (blockFor (.crdf .w8 0) 0 (zeros 0) (zeros 0) (view 8 0)) (zeros 0) (view 8 0) ∧
      0 + (blockFor (.crdf .w8 0) 0 (zeros 0) (zeros 0) (view 8 0)).fieldWidth .w8 ≤ 8) := by
  unfold Ready; decide

/-- CTX_STATE; WIDTH at b = 9; BOUNDS at b = 8 and off = 1; success at b = 8 and off = 0, and at b = 0 and off = len. -/
theorem witness_CrdtReadsLowBits :
    Ready (.crdt .w8 0 3) (blockFor (.crdt .w8 0 3) 0 (zeros 0) (zeros 0) Cursor.invalid) (zeros 0) ⟨false, [], 0⟩ ∧
    (Ready (.crdt .w8 0 9) (blockFor (.crdt .w8 0 9) 0 (zeros 0) (zeros 0) (view 8 0)) (zeros 0) (view 8 0) ∧
      (blockFor (.crdt .w8 0 9) 0 (zeros 0) (zeros 0) (view 8 0)).fieldWidth .w8 < (9 : Imm).toNat) ∧
    (Ready (.crdt .w8 0 8) (blockFor (.crdt .w8 0 8) 0 (zeros 0) (zeros 0) (view 8 1)) (zeros 0) (view 8 1) ∧
      (8 : Imm).toNat ≤ (blockFor (.crdt .w8 0 8) 0 (zeros 0) (zeros 0) (view 8 1)).fieldWidth .w8 ∧
      8 < 1 + (8 : Imm).toNat) ∧
    Ready (.crdt .w8 0 8) (blockFor (.crdt .w8 0 8) 0 (zeros 0) (zeros 0) (view 8 0)) (zeros 0) (view 8 0) ∧
    Ready (.crdt .w8 0 0) (blockFor (.crdt .w8 0 0) 0 (zeros 0) (zeros 0) (view 8 8)) (zeros 0) (view 8 8) := by
  unfold Ready; decide

/-- CTX_STATE; BOUNDS at off = 1; success at off = 0, with count 1 and len 8. -/
theorem witness_CrdyReadsBytes :
    Ready (.crdy 0 1) (blockFor (.crdy 0 1) 0 (zeros 0) (zeros 0) Cursor.invalid) (zeros 0) ⟨false, [], 0⟩ ∧
    Ready (.crdy 0 1) (blockFor (.crdy 0 1) 0 (zeros 0) (zeros 0) (view 8 1)) (zeros 0) (view 8 1) ∧
    Ready (.crdy 0 1) (blockFor (.crdy 0 1) 0 (zeros 0) (zeros 0) (view 8 0)) (zeros 0) (view 8 0) := by
  unfold Ready; decide

/-- CREM: CTX_STATE, and a valid cursor in a state that meets the invariant. -/
theorem witness_CremReturnsTheRemainder :
    Ready (.crem 0) (blockFor (.crem 0) 0 (zeros 0) (zeros 0) Cursor.invalid) (zeros 0) ⟨false, [], 0⟩ ∧
    Ready (.crem 0) (blockFor (.crem 0) 0 (zeros 0) (zeros 0) (view 8 8)) (zeros 0) (view 8 8) ∧
    (blockFor (.crem 0) 0 (zeros 0) (zeros 0) (view 8 8)).Inv := by
  unfold Ready; exact ⟨by decide, by decide, by decide, by decide, by decide, by decide, by decide⟩

/-- CTOT: CTX_STATE, and a valid cursor in a state that meets the invariant. -/
theorem witness_CtotReturnsTheTotal :
    Ready (.ctot 0) (blockFor (.ctot 0) 0 (zeros 0) (zeros 0) Cursor.invalid) (zeros 0) ⟨false, [], 0⟩ ∧
    Ready (.ctot 0) (blockFor (.ctot 0) 0 (zeros 0) (zeros 0) (view 8 3)) (zeros 0) (view 8 3) ∧
    (blockFor (.ctot 0) 0 (zeros 0) (zeros 0) (view 8 3)).Inv := by
  unfold Ready; exact ⟨by decide, by decide, by decide, by decide, by decide, by decide, by decide⟩

/-- CTX_STATE; off = len; off = len − 1. -/
theorem witness_CexhTestsExhaustion :
    Ready (.cexh 0) (blockFor (.cexh 0) 0 (zeros 0) (zeros 0) Cursor.invalid) (zeros 0) ⟨false, [], 0⟩ ∧
    Ready (.cexh 0) (blockFor (.cexh 0) 0 (zeros 0) (zeros 0) (view 8 8)) (zeros 0) (view 8 8) ∧
    Ready (.cexh 0) (blockFor (.cexh 0) 0 (zeros 0) (zeros 0) (view 8 7)) (zeros 0) (view 8 7) := by
  unfold Ready; decide

theorem witness_CspltSplitsTheRemainder :
    (0 : CtxIdx).toNat < tiny.nc ∧
    Ready (.csplt 0 1) (blockFor (.csplt 0 1) 0 (zeros 0) (zeros 0) Cursor.invalid) (zeros 0) ⟨false, [], 0⟩ ∧
    Ready (.csplt 0 1) (blockFor (.csplt 0 1) 0 (zeros 0) (zeros 0) (view 8 8)) (zeros 0) (view 8 8) := by
  unfold Ready; decide

theorem witness_CbytesExtractsTheImage :
    Ready (.cbytes 0) (blockFor (.cbytes 0) 0 (zeros 0) (zeros 0) Cursor.invalid) (zeros 0) ⟨false, [], 0⟩ ∧
    Ready (.cbytes 0) (blockFor (.cbytes 0) 0 (zeros 0) (zeros 0) (view 7 2)) (zeros 0) (view 7 2) := by
  unfold Ready; decide

/-- A halted block with each of: NOP, SRST with a payload, SRST, a register read. -/
theorem witness_HaltedBlockPerformsNothing :
    (haltedBlock (.command ⟨0, 0, []⟩)).halted = true ∧
    (haltedBlock (.command ⟨0, 0, []⟩)).chan = [.command ⟨0, 0, []⟩] ∧
    (haltedBlock (.command ⟨0x3F, 0, [1]⟩)).chan = [.command ⟨0x3F, 0, [1]⟩] ∧
    (haltedBlock (.command ⟨0x3F, 0, []⟩)).chan = [.command ⟨0x3F, 0, []⟩] ∧
    (haltedBlock (.readReg 0)).chan = [.readReg 0] := by decide

/-- Halted and left by SRST, left by the reset input, and not left by NOP. -/
theorem witness_OnlyAResetLeavesTheHalt :
    (nextState? (step (haltedBlock (.command ⟨0x3F, 0, []⟩)))).map State.halted = some false ∧
    (nextState? (step (haltedBlock .resetInput))).map State.halted = some false ∧
    (nextState? (step (haltedBlock (.command ⟨0, 0, []⟩)))).map State.halted = some true := by decide

theorem witness_RegisterReadPort :
    (haltedBlock (.readReg 0x18)).chan = .readReg 0x18 :: [] ∧ tiny.wf = true ∧
    0x18 ∉ [0x00, 0x04, 0x08, 0x0C, 0x10, 0x14] := by decide

theorem witness_ResetInputResetsTheBlock : (haltedBlock .resetInput).chan = .resetInput :: [] := by decide

theorem witness_ResetValues : (1 : CtxIdx).toNat < tiny.ns ∧ (1 : CtxIdx).toNat < tiny.nc := by decide

/-- A command that decodes, one that decode refuses on a running block, and an empty channel. -/
theorem witness_StepRunsTheDecodedCommand :
    ((blockFor (.snew 1) 0 (zeros 0) (zeros 0) Cursor.invalid).chan = [.command ⟨0x00000101, 0, []⟩] ∧
      decode tiny 0x00000101 0 = .ok (.snew 1)) ∧
    ((block (zeros 0) (zeros 0) Cursor.invalid ⟨0x3E, 0, []⟩).halted = false ∧
      decode tiny 0x0000003E 0 = .error .undefinedOp) ∧
    (State.resetFor tiny).chan = [] :=
  ⟨⟨by decide, rfl⟩, ⟨by decide, rfl⟩, by decide⟩

/-- Interactions of each kind; a successful SFINB, and a command after which the block is halted. -/
theorem witness_EveryCommandIsAnswered :
    (nextState? (step (blockFor (.sfinb 0) 0 (zeros 3) (zeros 0) Cursor.invalid))).map State.halted = some false ∧
    (nextState? (step (blockFor (.sfinb 0) 0 Sink.consumed (zeros 0) Cursor.invalid))).map State.halted = some true ∧
    (haltedBlock .resetInput).chan ≠ [] := by decide

/-- An invariant state that takes a step that writes a sink. -/
theorem witness_EveryStepKeepsTheInvariant :
    (blockFor (.spushb 0 true) 0 (zeros 7) (zeros 0) Cursor.invalid).Inv ∧
    (nextState? (step (blockFor (.spushb 0 true) 0 (zeros 7) (zeros 0) Cursor.invalid))).isSome = true :=
  ⟨⟨by decide, by decide, by decide, by decide, by decide⟩, by decide⟩

theorem witness_DecodeInvertsEncode :
    (Instr.spusht .w16 1 12).wf tiny = true ∧ (Instr.csplt 0 1).wf tiny = true := by decide

theorem witness_AcceptedWordsAreEncodings : decode tiny 0x00010006 1 = .ok (.spushy 0 1) := rfl

/-- The ends of the two ranges. -/
theorem witness_UndefinedOpcodesAreRefused :
    (decode tiny 0x0000000C 0 = .error .undefinedOp ∧ decode tiny 0xFFFFFFCF 5 = .error .undefinedOp ∧
      decode tiny 0x0000001A 0 = .error .undefinedOp ∧ decode tiny 0x0000003E 0 = .error .undefinedOp) ∧
    (State.resetFor tiny).halted = false :=
  ⟨⟨rfl, rfl, rfl, rfl⟩, by decide⟩

theorem witness_AssembledLinesDecode :
    (AsmLine.spushy 0 [1, 2]).instr.wf tiny = true ∧ (AsmLine.spushy 0 [1, 2]).payload.length < 2 ^ 16 ∧
    (assemble (.sovwr 0 5 true)).din ≠ 0 := by decide

/-- A command that runs and leaves a sink and a cursor it does not name. -/
theorem witness_ContextsAreIndependent :
    (nextState? (exec (.spushb 0 true) (blockFor (.spushb 0 true) 0 (zeros 0) (zeros 3) (view 8 1)))).isSome = true ∧
    Instr.spushb 0 true ≠ .srst ∧ (Instr.spushb 0 true).writesSink ≠ some 1 ∧
    (Instr.spushb 0 true).writesCursor ≠ some 0 := by decide

/-- A command that does not write DOUT, and one that would but faults. -/
theorem witness_OnlyScalarResultsWriteDout :
    ((nextState? (exec (.snew 0) (blockFor (.snew 0) 0 (zeros 0) (zeros 0) (view 8 1)))).isSome = true ∧
      (Instr.snew 0).writesDout = false) ∧
    (nextState? (exec (.crdb 0) (blockFor (.crdb 0) 0 (zeros 0) (zeros 0) (view 8 8)))).map State.halted = some true := by
  decide

theorem witness_CommandsAreAtomic :
    (nextState? (exec (.crdb 0) (blockFor (.crdb 0) 0 (zeros 0) (zeros 0) (view 8 8)))).isSome = true ∧
    Instr.crdb 0 ≠ .srst := by decide

/-- BOUNDS, WIDTH, CTX_STATE and CAPACITY, each raised in a state that meets the invariant; ILLEGAL_CMD is what the
statement excludes. -/
theorem witness_FaultKindsByCommand :
    (exec (.crdb 0) (blockFor (.crdb 0) 0 (zeros 0) (zeros 0) (view 8 8)) =
      .next ((blockFor (.crdb 0) 0 (zeros 0) (zeros 0) (view 8 8)).faultEntry .bounds) ∧
      (blockFor (.crdb 0) 0 (zeros 0) (zeros 0) (view 8 8)).accepts (.crdb 0) = true ∧
      (blockFor (.crdb 0) 0 (zeros 0) (zeros 0) (view 8 8)).Inv) ∧
    (exec (.crdt .w8 0 9) (blockFor (.crdt .w8 0 9) 0 (zeros 0) (zeros 0) (view 8 8)) =
      .next ((blockFor (.crdt .w8 0 9) 0 (zeros 0) (zeros 0) (view 8 8)).faultEntry .width) ∧
      (blockFor (.crdt .w8 0 9) 0 (zeros 0) (zeros 0) (view 8 8)).Inv) ∧
    (exec (.crem 0) (blockFor (.crem 0) 0 (zeros 0) (zeros 0) Cursor.invalid) =
      .next ((blockFor (.crem 0) 0 (zeros 0) (zeros 0) Cursor.invalid).faultEntry .ctxState) ∧
      (blockFor (.crem 0) 0 (zeros 0) (zeros 0) Cursor.invalid).Inv) ∧
    (exec (.spushb 0 true) (blockFor (.spushb 0 true) 0 (zeros 8) (zeros 0) Cursor.invalid) =
      .next ((blockFor (.spushb 0 true) 0 (zeros 8) (zeros 0) Cursor.invalid).faultEntry .capacity) ∧
      (blockFor (.spushb 0 true) 0 (zeros 8) (zeros 0) Cursor.invalid).Inv) :=
  ⟨⟨rfl, by decide, ⟨by decide, by decide, by decide, by decide, by decide⟩⟩,
    ⟨rfl, ⟨by decide, by decide, by decide, by decide, by decide⟩⟩,
    ⟨rfl, ⟨by decide, by decide, by decide, by decide, by decide⟩⟩,
    ⟨rfl, ⟨by decide, by decide, by decide, by decide, by decide⟩⟩⟩

theorem witness_SinksGrowMonotonically :
    ((nextState? (exec (.spad 0) (blockFor (.spad 0) 0 (zeros 3) (zeros 0) Cursor.invalid))).isSome = true ∧
      (Instr.spad 0).writesSink = some 0 ∧ (Instr.spad 0).appends = true) ∧
    ((nextState? (exec (.sovwr 0 true) (blockFor (.sovwr 0 true) 2 (zeros 3) (zeros 0) Cursor.invalid))).isSome = true ∧
      (Instr.sovwr 0 true).writesSink = some 0 ∧
      (blockFor (.sovwr 0 true) 2 (zeros 3) (zeros 0) Cursor.invalid).sink 0 = some (zeros 3)) := by decide

theorem witness_CursorsAdvanceMonotonically :
    (nextState? (exec (.crdb 0) (blockFor (.crdb 0) 0 (zeros 0) (zeros 0) (view 8 7)))).isSome = true ∧
    (blockFor (.crdb 0) 0 (zeros 0) (zeros 0) (view 8 7)).cursor 0 = some (view 8 7) ∧
    (view 8 7).valid = true ∧ (view 8 7).off ≤ (view 8 7).seq.length := by decide

/-- An exhausted cursor; widths 1 and N for CRDT, count 1 for CRDY. -/
theorem witness_ExhaustedCursorsRefuseReads :
    (blockFor .nop 0 (zeros 0) (zeros 0) (view 8 8)).halted = false ∧
    (blockFor .nop 0 (zeros 0) (zeros 0) (view 8 8)).payload = [] ∧ (0 : CtxIdx).toNat < tiny.nc ∧
    (blockFor .nop 0 (zeros 0) (zeros 0) (view 8 8)).cursor 0 = some (view 8 8) ∧
    (view 8 8).off = (view 8 8).seq.length ∧
    1 ≤ (8 : Imm).toNat ∧ (8 : Imm).toNat ≤ (blockFor .nop 0 (zeros 0) (zeros 0) (view 8 8)).fieldWidth .w8 := by decide

/-- A CRDB with two values of DIN, and a SPUSHF.8 with two that agree on 7:0. -/
theorem witness_UnusedDinIsIgnored :
    Command.decode tiny ⟨0x00000011, 1, []⟩ = .ok (.crdb 0) ∧
    Command.decode tiny ⟨0x00000004, 0x1FF, []⟩ = .ok (.spushf .w8 0) ∧
    (0x1FF : DataWord).toNat % 2 ^ (State.resetFor tiny).fieldWidth .w8 =
      (0x2FF : DataWord).toNat % 2 ^ (State.resetFor tiny).fieldWidth .w8 :=
  ⟨rfl, rfl, by decide⟩

theorem witness_WidthSelector :
    ({ tiny with wordW := .w32 } : Config).wordW = .w32 ∧ decode tiny 0x00000044 0 = .ok (.spushf .w16 0) ∧
    (0x00000044 : Word32).extractLsb' 6 2 ≠ 0#2 :=
  ⟨rfl, rfl, by decide⟩

/-- Two byte runs pushed, and two read, in the configuration of State.reset. -/
theorem witness_RunsConcatenate :
    (([0xDE] : List Byte) ++ [0xAD]).length < 2 ^ 16 ∧
    ((nextState? (issue (assemble (.spushy 0 [0xDE])) State.reset)).bind fun t =>
      (nextState? (issue (assemble (.spushy 0 [0xAD])) t)).map State.halted) = some false ∧
    ((nextState? (issue (assemble (.crdy 0 1)) (cursor0 [0xDE, 0xAD] 0))).bind fun t =>
      (nextState? (issue (assemble (.crdy 0 1)) t)).map State.halted) = some false := by decide

theorem witness_FieldsAreLittleEndian :
    ((nextState? (exec (.spushf .w8 0) (blockFor (.spushf .w8 0) 5 (zeros 0) (zeros 0) Cursor.invalid))).map State.halted =
      some false ∧
      (blockFor (.spushf .w8 0) 5 (zeros 0) (zeros 0) Cursor.invalid).sink 0 = some ⟨.active, []⟩) ∧
    ((nextState? (exec (.crdf .w8 0) (blockFor (.crdf .w8 0) 0 (zeros 0) (zeros 0) (view 8 0)))).map State.halted =
      some false ∧
      (blockFor (.crdf .w8 0) 0 (zeros 0) (zeros 0) (view 8 0)).cursor 0 = some (view 8 0)) := by decide

/-- The last bit of a partial last byte. -/
theorem witness_ByteImageIsLsbFirst : 1 < ((bitsOf 0x187 9).length + 7) / 8 ∧ 7 < 8 := by decide

theorem witness_ByteImageInvertsBytes :
    (State.resetFor tiny).cursor 0 = some Cursor.invalid ∧ ([0xB4] : List Byte).length < 2 ^ 16 ∧
    (nextState? (issue (assemble (.cnewb 0 [0xB4])) (State.resetFor tiny))).map State.halted = some false := by decide

/-- A field and a byte run that end at the last bit (vectors B1 and B2). -/
theorem witness_FieldReadByShift :
    8 + 16 ≤ (bytesToSeq [0x3C, 0xA5, 0x0F]).length ∧ 8 + 8 * 2 ≤ (bytesToSeq [0xBD, 0x5B, 0x01]).length := by decide

/-- Seven stray bits, and a value of the full width. -/
theorem witness_FixedFieldsRoundTrip :
    (sink0 (List.replicate 7 true)).Inv ∧ (sink0 (List.replicate 7 true)).halted = false ∧
    (sink0 (List.replicate 7 true)).sink 0 = some ⟨.active, List.replicate 7 true⟩ ∧
    7 + (sink0 (List.replicate 7 true)).fieldWidth .wW ≤ State.reset.cfg.capBits ∧
    (0xFEDCBA9876543210 : DataWord).toNat < 2 ^ (sink0 (List.replicate 7 true)).fieldWidth .wW :=
  ⟨⟨by decide, by decide, by decide, by decide, by decide⟩, by decide, by decide, by decide, by decide⟩

theorem witness_TruncatedFieldsRoundTrip :
    (sink0 (List.replicate 7 true)).Inv ∧
    (64 : Imm).toNat ≤ (sink0 (List.replicate 7 true)).fieldWidth .wW ∧
    7 + (64 : Imm).toNat ≤ State.reset.cfg.capBits :=
  ⟨⟨by decide, by decide, by decide, by decide, by decide⟩, by decide, by decide⟩

theorem witness_ByteRunsRoundTrip :
    (sink0 (List.replicate 7 true)).Inv ∧ ([0xDE, 0xAD] : List Byte).length < 2 ^ 16 ∧
    7 + 8 * ([0xDE, 0xAD] : List Byte).length ≤ State.reset.cfg.capBits :=
  ⟨⟨by decide, by decide, by decide, by decide, by decide⟩, by decide, by decide⟩

end Sys2Proof.Tests.Slice0
end

section
/-! PROOFS. The reset state of a block with any parameters, read through the accessors (spec/10_state.md R38), and
the obligation that states its values. -/

namespace Sys2Proof.Machine

section ResetFor
variable {cfg : Config} {a : CtxIdx}

@[simp] theorem resetFor_cfg : (State.resetFor cfg).cfg = cfg := rfl
@[simp] theorem resetFor_status : (State.resetFor cfg).status = 0 := rfl
@[simp] theorem resetFor_fcmd : (State.resetFor cfg).fcmd = 0 := rfl
@[simp] theorem resetFor_dout : (State.resetFor cfg).dout = 0 := rfl

theorem sink_resetFor (h : a.toNat < cfg.ns) : (State.resetFor cfg).sink a = some Sink.empty := by
  simp [State.sink, State.resetFor, h]

theorem cursor_resetFor (h : a.toNat < cfg.nc) : (State.resetFor cfg).cursor a = some Cursor.invalid := by
  simp [State.cursor, State.resetFor, h]

@[simp] theorem halted_resetFor : (State.resetFor cfg).halted = false := by
  simp [State.halted]

/-- fault_o is STATUS.HALT (R33). -/
@[simp] theorem faultO_resetFor : (State.resetFor cfg).faultO = false :=
  halted_resetFor

end ResetFor

/-- Settles O29: the contexts are replicated empty ones, the registers are zero, and fault_o follows from STATUS;
State.reset is a `resetFor`, so its own parameters give it back. -/
theorem resetValues : Obligations.ResetValues := by
  refine ⟨fun cfg a => ⟨sink_resetFor, cursor_resetFor, resetFor_status, resetFor_fcmd, resetFor_dout,
    faultO_resetFor, halted_resetFor⟩, ?_⟩
  rw [State.reset, resetFor_cfg]

end Sys2Proof.Machine
end

section
/-! PROOFS. The debug rendering by its number of groups (spec/20_memory.md R72), and the obligation that states the
source's examples of it (R73). -/

namespace Sys2Proof.Machine

section Render
variable {delim : List Char} {s : Bits}

@[simp] theorem render_nil : render delim [] = [] := rfl

/-- A sequence of one group is rendered without the delimiter. -/
theorem render_eq_group (hpos : 0 < s.length) (hlen : s.length ≤ 8) : render delim s = renderGroup s 0 := by
  have hcount : byteCount s.length = 1 := by unfold byteCount; omega
  simp [render, hcount]

/-- The delimiter stands between the two groups only. -/
theorem render_eq_group_append_group (hgt : 8 < s.length) (hlen : s.length ≤ 16) :
    render delim s = renderGroup s 0 ++ delim ++ renderGroup s 1 := by
  have hcount : byteCount s.length = 2 := by unfold byteCount; omega
  simp [render, hcount, List.range_succ, List.intercalate]

end Render

/-- Settles O55: the examples have no group, one and two, and each group is eight characters read off the sequence. -/
theorem renderingExamples : Obligations.RenderingExamples := by
  intro delim
  refine ⟨render_nil, ?_, ?_⟩
  · rw [render_eq_group (by decide) (by decide)]
    decide
  · have hlow : renderGroup [false, true, true, true, false, false, false, false, true] 0 =
        ['0', '0', '0', '0', '1', '1', '1', '0'] := by decide
    have hhigh : renderGroup [false, true, true, true, false, false, false, false, true] 1 =
        ['.', '.', '.', '.', '.', '.', '.', '1'] := by decide
    rw [render_eq_group_append_group (by decide) (by decide), hlow, hhigh]

end Sys2Proof.Machine
end

section
/-! PROOFS. Which OP values have a row in the opcode map (spec/30_encoding.md R86, R88), what the decoder accepts
(R94), and the obligation about undefined OP values. -/

namespace Sys2Proof.Machine

section Decoder
variable {cfg : Config} {w : Word32} {n : Nat} {i : Instr}

/-- OP is bits 5:0 of the word (R81). -/
theorem op_unpack_toNat (w : Word32) : (Fields.unpack w).op.toNat = w.toNat % 64 := by
  simp [Fields.unpack]

/-- The undefined OP values of R88 are the ones without a row. -/
theorem rowOf_eq_none_iff (op : BitVec 6) :
    rowOf op = none ↔ (0x0C ≤ op.toNat ∧ op.toNat ≤ 0x0F) ∨ (0x1A ≤ op.toNat ∧ op.toNat ≤ 0x3E) := by
  revert op; decide

/-- Every later check has another refusal, so only a missing row is an undefined OP. -/
theorem decode_eq_undefinedOp_iff :
    decode cfg w n = .error .undefinedOp ↔ rowOf (Fields.unpack w).op = none := by
  cases hr : rowOf (Fields.unpack w).op with
  | none => simp [decode, hr]
  | some r =>
    simp only [decode, hr, reduceCtorEq, iff_false]
    split_ifs <;> simp

/-- A check in front of a computation that succeeds has passed. -/
theorem ite_error_eq_ok_iff {ε α : Type} {p : Prop} [Decidable p] {e : ε} {x : Except ε α} {y : α} :
    (if p then .error e else x) = .ok y ↔ ¬p ∧ x = .ok y := by
  by_cases hp : p <;> simp [hp]

/-- Decode answers what the row of OP makes, after the checks of the row. -/
theorem decode_eq_ok_iff :
    decode cfg w n = .ok i ↔
      ∃ r, rowOf (Fields.unpack w).op = some r ∧ r.reservedOk (Fields.unpack w) = true ∧
        (r.ctxa.inRange cfg (Fields.unpack w).ctxa && r.ctxb.inRange cfg (Fields.unpack w).ctxb) = true ∧
        (!(r.noAlias && (Fields.unpack w).ctxa == (Fields.unpack w).ctxb)) = true ∧
        n = r.need (Fields.unpack w) ∧
        r.make (WSel.ofBits (Fields.unpack w).wsel) (Fields.unpack w).ctxa (Fields.unpack w).ctxb
          (Fields.unpack w).imm = i := by
  cases hr : rowOf (Fields.unpack w).op with
  | none => simp [decode, hr]
  | some r =>
    simp only [decode, hr, ite_error_eq_ok_iff, Bool.not_eq_true, Bool.not_eq_false, Bool.not_eq_true',
      bne_eq_false_iff_eq, Except.ok.injEq, Option.some.injEq, exists_eq_left']

end Decoder

section Refusal
variable {s : State} {c : Command} {e : DecodeError}

/-- A running block answers a command that decode refuses with ILLEGAL_CMD (R243). -/
theorem answerCommand_refused (hrun : s.halted = false) (hd : c.decode s.cfg = .error e) :
    answerCommand c s = .next (s.faultEntry .illegalCmd) := by
  simp [answerCommand, hrun, hd]

/-- The same for a command issued alone: the fault entry, and the command leaves the channel. -/
theorem issue_refused (hrun : s.halted = false) (hd : c.decode s.cfg = .error e) :
    issue c s = .next ((s.offering (.command c)).faultEntry .illegalCmd).closeHead := by
  rw [issue, step_command (offering_chan s _), answerCommand_refused (s := s.offering (.command c)) hrun hd]
  rfl

end Refusal

/-- Settles O36: decode answers `undefinedOp` exactly where OP has no row, and a refused command raises ILLEGAL_CMD. -/
theorem undefinedOpcodesAreRefused : Obligations.UndefinedOpcodesAreRefused := by
  have hundef : ∀ (cfg : Config) (w : Word32) (n : Nat), decode cfg w n = .error .undefinedOp ↔
      (0x0C ≤ w.toNat % 64 ∧ w.toNat % 64 ≤ 0x0F) ∨ (0x1A ≤ w.toNat % 64 ∧ w.toNat % 64 ≤ 0x3E) := by
    intro cfg w n
    rw [decode_eq_undefinedOp_iff, rowOf_eq_none_iff, op_unpack_toNat]
  refine ⟨hundef, fun s c hrun hop => ?_⟩
  have hd : c.decode s.cfg = .error .undefinedOp := (hundef s.cfg c.word c.payload.length).2 hop
  exact ⟨_, issue_refused hrun hd, rfl, rfl, rfl, rfl, rfl⟩

end Sys2Proof.Machine
end

section
/-! PROOFS. A command reads WSEL only through the field width it selects (spec/30_encoding.md R82), the commands with
a width in the opcode map (R86), and the obligation about the width selector. -/

namespace Sys2Proof.Machine

section FieldWidth
variable {s : State} {w w' : WSel} {a : CtxIdx} {n : Nat}

theorem perform_congr {i j : Instr} {body body' : Effect}
    (hl : i.legal s.cfg s.payload.length = j.legal s.cfg s.payload.length) (hb : body = body') :
    s.perform i body = s.perform j body' := by
  subst hb
  unfold State.perform
  rw [hl]

theorem fieldWidth_wW : s.fieldWidth .wW = if s.cfg.wordW = .w32 then 32 else 64 := by
  cases h : s.cfg.wordW <;> simp [State.fieldWidth, WordWidth.bits, h]

variable (h : s.fieldWidth w = s.fieldWidth w')
include h

theorem pushField_of_fieldWidth_eq : s.pushField w a n = s.pushField w' a n := by
  rw [State.pushField, State.pushField, State.dinField, State.dinField, h]

theorem readField_of_fieldWidth_eq : s.readField w a n = s.readField w' a n := by
  rw [State.readField, State.readField, h]

/-- Selectors of one width give the same field commands. -/
theorem exec_field_of_fieldWidth_eq (a : CtxIdx) (m : Imm) :
    exec (.spushf w a) s = exec (.spushf w' a) s ∧ exec (.spusht w a m) s = exec (.spusht w' a m) s ∧
    exec (.crdf w a) s = exec (.crdf w' a) s ∧ exec (.crdt w a m) s = exec (.crdt w' a m) s := by
  have hpush : ∀ k, s.pushField w a k = s.pushField w' a k := fun _ => pushField_of_fieldWidth_eq h
  have hread : ∀ k, s.readField w a k = s.readField w' a k := fun _ => readField_of_fieldWidth_eq h
  exact ⟨perform_congr rfl (h ▸ hpush _), perform_congr rfl (hpush _),
    perform_congr rfl (h ▸ hread _), perform_congr rfl (hread _)⟩

end FieldWidth

section WidthRows
variable {op : BitVec 6} {r : Row}

/-- The rows that use WSEL: SPUSHF, SPUSHT, CRDF and CRDT (R86). -/
theorem op_of_usesWidth (hr : rowOf op = some r) (hw : r.usesWidth = true) :
    op = 0x04 ∨ op = 0x05 ∨ op = 0x12 ∨ op = 0x13 := by
  have htable : ∀ op : BitVec 6, (rowOf op).any (·.usesWidth) = true →
      op = 0x04 ∨ op = 0x05 ∨ op = 0x12 ∨ op = 0x13 := by decide
  exact htable op (by simp [hr, hw])

/-- What a row that uses WSEL makes. -/
theorem make_of_usesWidth (hr : rowOf op = some r) (hw : r.usesWidth = true) (ws : WSel) (a b : CtxIdx) (m : Imm) :
    r.make ws a b m = .spushf ws a ∨ r.make ws a b m = .spusht ws a m ∨
    r.make ws a b m = .crdf ws a ∨ r.make ws a b m = .crdt ws a m := by
  obtain rfl | rfl | rfl | rfl := op_of_usesWidth hr hw <;> cases hr
  · exact .inl rfl
  · exact .inr (.inl rfl)
  · exact .inr (.inr (.inl rfl))
  · exact .inr (.inr (.inr rfl))

/-- A row that accepts a nonzero WSEL uses it (R87). -/
theorem usesWidth_of_wsel_ne_zero {f : Fields} (hok : r.reservedOk f = true) (hw : f.wsel ≠ 0) :
    r.usesWidth = true := by
  simp only [Row.reservedOk, Bool.and_eq_true, Bool.or_eq_true, beq_iff_eq] at hok
  obtain ⟨⟨⟨hwsel, -⟩, -⟩, -⟩ := hok
  exact hwsel.resolve_right hw

end WidthRows

/-- Settles O47: the codes, suffixes and widths by their definitions; equal widths give equal commands; and a nonzero
WSEL passes the reserved-field check only in a row that uses it. -/
theorem widthSelector : Obligations.WidthSelector := by
  refine ⟨⟨rfl, rfl, rfl, rfl⟩, ⟨rfl, rfl, rfl, rfl⟩, fun s => ⟨rfl, rfl, rfl, fieldWidth_wW, fun h32 a n => ?_⟩,
    fun cfg w n i hd hw => ?_⟩
  · have hwidth : s.fieldWidth .wW = s.fieldWidth .w32 := by rw [fieldWidth_wW, if_pos h32]; rfl
    exact exec_field_of_fieldWidth_eq hwidth a n
  · obtain ⟨r, hr, hok, -, -, -, rfl⟩ := decode_eq_ok_iff.1 hd
    exact ⟨_, _, _, WSel.toBits_ofBits _, make_of_usesWidth hr (usesWidth_of_wsel_ne_zero hok hw) _ _ _ _⟩

end Sys2Proof.Machine
end

section
/-! PROOFS. The value of an instruction's word (spec/30_encoding.md R81), and what decode answers on it: the operand
checks in the order of R94. -/

namespace Sys2Proof

section EncodedWord
variable {cfg : Config} {n : Nat} {i : Instr}

theorem toNat_encode (i : Instr) :
    (encode i).toNat = i.fields.imm.toNat * 2 ^ 16 + i.fields.ctxb.toNat * 2 ^ 12 + i.fields.ctxa.toNat * 2 ^ 8 +
      i.fields.wsel.toNat * 2 ^ 6 + i.fields.op.toNat :=
  Fields.toNat_pack i.fields

/-- The word of an instruction passes the checks on OP and the reserved fields; the operand checks are left. -/
theorem decode_encode_eq_checks (hrow : Laws.OpcodeRow.Statement i) :
    decode cfg (encode i) n =
      if !i.indexOk cfg then .error .contextIndex
      else if !i.noAlias then .error .selfAlias
      else if n != i.payloadNeed then .error .payloadLength
      else .ok i := by
  obtain ⟨r, hr, hreserved, hindex, halias, hneed, hmake⟩ := hrow
  simp only [decode, encode, Fields.unpack_pack, hr, hreserved, hindex, ← halias, hneed, hmake, Bool.not_not,
    Bool.not_true, Bool.false_eq_true, if_false]

/-- A payload of another length than the instruction needs is refused (R89). -/
theorem decode_encode_payloadLength (hrow : Laws.OpcodeRow.Statement i) (hi : i.indexOk cfg = true)
    (ha : i.noAlias = true) (hn : n ≠ i.payloadNeed) : decode cfg (encode i) n = .error .payloadLength := by
  simp [decode_encode_eq_checks hrow, hi, ha, hn]

/-- A context named twice where two are needed is refused, whatever the payload (R90). -/
theorem decode_encode_selfAlias (hrow : Laws.OpcodeRow.Statement i) (hi : i.indexOk cfg = true)
    (ha : i.noAlias = false) : decode cfg (encode i) n = .error .selfAlias := by
  simp [decode_encode_eq_checks hrow, hi, ha]

end EncodedWord

end Sys2Proof
end

section
/-! PROOFS. The bodies of the BitSink commands by their checks (spec/40_sink.md R110), and the obligations about the
commands of R111 to R116 and R118 to R121. -/

namespace Sys2Proof.Machine

section SinkBodies
variable {s : State} {a b : CtxIdx} {q bits : Bits} {c : Cursor}

section Binds
variable {α : Type} {g : Bits → Except FaultKind α} {h : Cursor → Except FaultKind α}

theorem activeSeq_bind_active (hs : s.sink a = some ⟨.active, q⟩) : (s.activeSeq a >>= g) = g q := by
  rw [activeSeq_active hs, bind_ok]

theorem activeSeq_bind_finalized (hs : s.sink a = some ⟨.finalized, q⟩) :
    (s.activeSeq a >>= g) = .error .ctxState := by
  rw [activeSeq_finalized hs, bind_error]

theorem validCursor_bind_valid (hc : s.cursor b = some c) (hv : c.valid = true) :
    (s.validCursor b >>= h) = h c := by
  rw [validCursor_valid hc hv, bind_ok]

theorem validCursor_bind_invalid (hc : s.cursor b = some c) (hv : c.valid = false) :
    (s.validCursor b >>= h) = .error .ctxState := by
  rw [validCursor_invalid hc hv, bind_error]

end Binds

theorem append_fits (h : q.length + bits.length ≤ s.cfg.capBits) :
    s.append a q bits = .ok (s.setSeq a (q ++ bits), []) :=
  append_eq_ok.2 ⟨h, rfl, rfl⟩

/-- The field is a field of the message's data operand, since N ≤ WORD_W. -/
theorem pushField_fits {w : WSel} {n : Nat} (hs : s.sink a = some ⟨.active, q⟩) (hn : n ≤ s.fieldWidth w)
    (hc : q.length + n ≤ s.cfg.capBits) :
    s.pushField w a n = .ok (s.setSeq a (q ++ bitsOf (s.current.din.toNat % 2 ^ s.fieldWidth w) n), []) :=
  pushField_eq_ok.2 ⟨q, hs, hn, hc, by rw [dinField_eq], rfl⟩

/-- A performed command whose body gives ACTIVE sink a the sequence `q` and outputs nothing: its whole next state. -/
theorem perform_setSeq {i : Instr} {body : Effect} (hacc : s.accepts i = true)
    (hbody : body = .ok (s.setSeq a q, [])) :
    s.perform i body = .next { s with sinks := s.sinks.set a.toNat ⟨.active, q⟩,
                                      reply := some (.response ⟨s.status, s.dout, []⟩) } :=
  perform_ok hacc hbody

/-- The payload of an accepted SPUSHY is `count` bytes (R89). -/
theorem length_bytesToSeq_payload {count : Imm} (h : s.accepts (.spushy a count) = true) :
    (bytesToSeq s.payload).length = 8 * count.toNat := by
  rw [length_bytesToSeq, payload_length_of_accepts h, Instr.payloadNeed]

end SinkBodies

/-- Settles O3: the body has no check. -/
theorem snewCreatesAnEmptySink : Obligations.SnewCreatesAnEmptySink := by
  intro a
  exact ⟨by simp [toNat_encode, Instr.fields], fun s hacc => perform_ok hacc rfl⟩

/-- Settles O4: the check of sink a, then an append of one bit. -/
theorem spushbAppendsOneBit : Obligations.SpushbAppendsOneBit := by
  intro a v
  refine ⟨by simp [toNat_encode, Instr.fields, toNat_immOfBit], fun s q hacc => ⟨fun hs => ?_, fun hs hcap => ?_,
    fun hs hcap => ?_⟩⟩
  · exact perform_error hacc (activeSeq_bind_finalized hs)
  · exact perform_error hacc ((activeSeq_bind_active hs).trans (append_full hcap))
  · exact perform_setSeq hacc ((activeSeq_bind_active hs).trans (append_fits hcap))

/-- Settles O5: the check of sink a, then of the index; the new sequence is `List.set` at DIN. -/
theorem sovwrOverwritesOneBit : Obligations.SovwrOverwritesOneBit := by
  intro a v
  refine ⟨by simp [toNat_encode, Instr.fields, toNat_immOfBit], fun s q hacc => ⟨fun hs => ?_, fun hs hidx => ?_,
    fun hs hidx => ⟨q.set s.din v, List.length_set, List.getElem?_set_self hidx,
      fun j hj => List.getElem?_set_ne hj.symm, ?_⟩⟩⟩
  · exact perform_error hacc (activeSeq_bind_finalized hs)
  · exact perform_error hacc ((activeSeq_bind_active hs).trans (by rw [decide_eq_false (by omega)]; rfl))
  · exact perform_setSeq hacc ((activeSeq_bind_active hs).trans (by rw [decide_eq_true hidx]; rfl))

/-- Settles O6: a field push of all N bits, whose width check passes. -/
theorem spushfAppendsAField : Obligations.SpushfAppendsAField := by
  intro w a
  refine ⟨by simp [toNat_encode, Instr.fields], fun s q hacc => ⟨fun hs => ?_, fun hs hcap => ?_,
    fun hs hcap => ?_⟩⟩
  · exact perform_error hacc (pushField_finalized hs)
  · exact perform_error hacc (pushField_full hs le_rfl hcap)
  · exact perform_setSeq hacc (pushField_fits hs le_rfl hcap)

/-- Settles O7: a field push of b bits, with its three checks in order. -/
theorem spushtAppendsLowBits : Obligations.SpushtAppendsLowBits := by
  intro w a n
  refine ⟨by simp [toNat_encode, Instr.fields], fun s q hacc => ⟨fun hs => ?_, fun hs hwide => ?_,
    fun hs hn hcap => ?_, fun hs hn hcap => ?_⟩⟩
  · exact perform_error hacc (pushField_finalized hs)
  · exact perform_error hacc (pushField_wide hs hwide)
  · exact perform_error hacc (pushField_full hs hn hcap)
  · exact perform_setSeq hacc (pushField_fits hs hn hcap)

/-- Settles O8: the check of sink a, then an append of the payload's bits, 8·count of them. -/
theorem spushyAppendsBytes : Obligations.SpushyAppendsBytes := by
  intro a count
  refine ⟨by simp [toNat_encode, Instr.fields], fun cfg n hidx hn =>
    decode_encode_payloadLength (Laws.OpcodeRow.spushy a count) (decide_eq_true hidx) rfl hn, fun s q hacc => ?_⟩
  rw [← length_bytesToSeq_payload hacc]
  refine ⟨fun hs => ?_, fun hs hcap => ?_, fun hs hcap => ?_⟩
  · exact perform_error hacc (activeSeq_bind_finalized hs)
  · exact perform_error hacc ((activeSeq_bind_active hs).trans (append_full hcap))
  · exact perform_setSeq hacc ((activeSeq_bind_active hs).trans (append_fits hcap))

/-- Settles O10: the check of sink a, then of sink b, then an append of what sink b holds. -/
theorem sappsAppendsASink : Obligations.SappsAppendsASink := by
  intro a b
  refine ⟨by simp [toNat_encode, Instr.fields], fun cfg n hidx =>
    decode_encode_selfAlias (Laws.OpcodeRow.sapps a a) (by simp [Instr.indexOk, hidx]) (by simp [Instr.noAlias]),
    fun s q r hacc => ⟨fun hs => ?_, fun hs hr => ?_, fun hs hr hcap => ?_, fun hs hr hcap => ?_⟩⟩
  · exact perform_error hacc (activeSeq_bind_finalized hs)
  · exact perform_error hacc ((activeSeq_bind_active hs).trans (activeSeq_bind_finalized hr))
  · exact perform_error hacc ((activeSeq_bind_active hs).trans ((activeSeq_bind_active hr).trans (append_full hcap)))
  · exact perform_setSeq hacc ((activeSeq_bind_active hs).trans ((activeSeq_bind_active hr).trans (append_fits hcap)))

/-- Settles O11: the check of sink a, then of cursor b, then an append of its view. -/
theorem sappcAppendsAWholeView : Obligations.SappcAppendsAWholeView := by
  intro a b
  refine ⟨by simp [toNat_encode, Instr.fields], fun s q c hacc => ⟨fun hs => ?_, fun hs hc hv => ?_,
    fun hs hc hv hcap => ?_, fun hs hc hv hcap => ?_⟩⟩
  · exact perform_error hacc (activeSeq_bind_finalized hs)
  · exact perform_error hacc ((activeSeq_bind_active hs).trans (validCursor_bind_invalid hc hv))
  · exact perform_error hacc
      ((activeSeq_bind_active hs).trans ((validCursor_bind_valid hc hv).trans (append_full hcap)))
  · exact perform_setSeq hacc
      ((activeSeq_bind_active hs).trans ((validCursor_bind_valid hc hv).trans (append_fits hcap)))

/-- Settles O12: the check of sink a is the only one. -/
theorem sfincFinalizesToACursor : Obligations.SfincFinalizesToACursor := by
  intro a b
  refine ⟨by simp [toNat_encode, Instr.fields], fun s q hacc => ⟨fun hs => ?_, fun hs => ?_⟩⟩
  · exact perform_error hacc (activeSeq_bind_finalized hs)
  · exact perform_ok (t := (s.setCursor b (Cursor.over q)).setSink a Sink.consumed) hacc (activeSeq_bind_active hs)

/-- Settles O13: the check of sink a is the only one. -/
theorem sfinbFinalizesToBytes : Obligations.SfinbFinalizesToBytes := by
  intro a
  refine ⟨by simp [toNat_encode, Instr.fields], fun s q hacc => ⟨fun hs => ?_, fun hs => ?_⟩⟩
  · exact perform_error hacc (activeSeq_bind_finalized hs)
  · exact perform_ok (t := s.setSink a Sink.consumed) hacc (activeSeq_bind_active hs)

end Sys2Proof.Machine
end

section
/-! PROOFS. What an accepted BitCursor command does to the state, by its checks and its writes (spec/41_cursor.md
R170), and the obligations about the commands of R171 to R180. -/

namespace Sys2Proof.Machine

section CursorBodies
variable {s : State} {i : Instr} {a : CtxIdx} {c : Cursor} {body : Effect} {n v off : Nat} {q : Bits}
  {out : List Byte}

/-! ### Values in DOUT -/

theorem setDout_toNat_of_lt (hv : v < 2 ^ s.cfg.wordW.bits) : (s.setDout v).dout.toNat = v :=
  setDout_toNat (w := .wW) hv le_rfl

theorem one_lt_two_pow_wordW : 1 < 2 ^ s.cfg.wordW.bits := by
  cases s.cfg.wordW <;> decide

/-- A single bit in DOUT. -/
theorem setDout_bool (p : Bool) : (s.setDout p.toNat).dout = if p then 1 else 0 := by
  apply BitVec.eq_of_toNat_eq
  rw [setDout_toNat_of_lt ((Bool.toNat_le p).trans_lt one_lt_two_pow_wordW)]
  cases p <;> rfl

/-- CAP_BITS is below 2^32 (R8), so a length fits DOUT at both word widths (R176). -/
theorem capBits_lt_two_pow_wordW (h : s.cfg.wf = true) : s.cfg.capBits < 2 ^ s.cfg.wordW.bits := by
  obtain ⟨-, -, -, -, -, -, hcap⟩ := of_decide_eq_true h
  have hword : 2 ^ 32 ≤ 2 ^ s.cfg.wordW.bits := by cases s.cfg.wordW <;> decide
  omega

/-- The invariant bounds the offset by the length and the length by what DOUT holds. -/
theorem cursor_bounds (hinv : s.Inv) (hc : s.cursor a = some c) :
    c.off ≤ c.seq.length ∧ c.seq.length < 2 ^ s.cfg.wordW.bits := by
  have hwf := cursor_wf hinv.memory hc
  simp only [Cursor.wf, Bool.and_eq_true, decide_eq_true_eq] at hwf
  obtain ⟨⟨hlen, hoff⟩, -⟩ := hwf
  exact ⟨hoff, hlen.trans_lt (capBits_lt_two_pow_wordW hinv.config)⟩

/-! ### Runs -/

/-- Byte j of a run is the eight bits from off + 8j on: they fit a byte. -/
theorem getElem?_readRun {j count : Nat} (hj : j < count) :
    (readRun q off count)[j]?.map BitVec.toNat = some (fromBits (slice q (off + 8 * j) 8)) := by
  simpa [readRun, hj] using fromBits_slice_lt q (off + 8 * j) 8

/-! ### Checks -/

section Binds
variable {α : Type} {g : State → Except FaultKind α} {h : Unit → Except FaultKind α}

theorem requireCapacity_bind_full (hn : s.cfg.capBits < n) : (s.requireCapacity n >>= h) = .error .capacity := by
  rw [State.requireCapacity, decide_eq_false (Nat.not_le.2 hn), require_false, bind_error]

theorem requireCapacity_bind_fits (hn : n ≤ s.cfg.capBits) : (s.requireCapacity n >>= h) = h () := by
  rw [State.requireCapacity, decide_eq_true hn, require_true, bind_ok]

theorem advance_bind_past_end (hn : c.seq.length < c.off + n) : (s.advance a c n >>= g) = .error .bounds := by
  rw [advance_past_end hn, bind_error]

/-- The cursor is valid, so advancing it writes a valid cursor on the same view. -/
theorem advance_bind_within (hv : c.valid = true) (hn : c.off + n ≤ c.seq.length) :
    (s.advance a c n >>= g) = g (s.setCursor a ⟨true, c.seq, c.off + n⟩) := by
  rw [advance_eq_ok.2 ⟨hn, rfl⟩, bind_ok, hv]

end Binds

/-! ### The whole next state of a performed command -/

section Performed
variable (hacc : s.accepts i = true)
include hacc

/-- The body writes cursor a and nothing else: DOUT stays. -/
theorem perform_setCursor (hbody : body = .ok (s.setCursor a ⟨true, q, off⟩, out)) :
    s.perform i body = .next { s with cursors := s.cursors.set a.toNat ⟨true, q, off⟩,
                                      reply := some (.response ⟨s.status, s.dout, out⟩) } :=
  perform_ok hacc hbody

/-- The body writes cursor a and DOUT. -/
theorem perform_setCursor_setDout (hbody : body = .ok ((s.setCursor a ⟨true, q, off⟩).setDout v, [])) :
    s.perform i body = .next { s with cursors := s.cursors.set a.toNat ⟨true, q, off⟩,
                                      dout := (s.setDout v).dout,
                                      reply := some (.response ⟨s.status, (s.setDout v).dout, []⟩) } :=
  perform_ok hacc hbody

variable (hc : s.cursor a = some c)
include hc

theorem perform_query_invalid {value : Cursor → Nat} (hv : c.valid = false) :
    s.perform i (s.query a value) = .next (s.faultEntry .ctxState) :=
  perform_error hacc (validCursor_bind_invalid hc hv)

variable (hv : c.valid = true)
include hv

/-- A query writes DOUT and nothing else: every context stays. -/
theorem perform_query_valid {value : Cursor → Nat} :
    s.perform i (s.query a value) =
      .next { s with dout := (s.setDout (value c)).dout,
                     reply := some (.response ⟨s.status, (s.setDout (value c)).dout, []⟩) } :=
  perform_ok hacc (query_eq_ok.2 ⟨c, hc, hv, rfl, rfl⟩)

/-- A read of n bits, n ≤ N, of a view that has them: DOUT holds them whole, since N ≤ WORD_W. -/
theorem perform_readField {w : WSel} (hn : n ≤ s.fieldWidth w) (hlen : c.off + n ≤ c.seq.length) :
    ∃ d : DataWord, d.toNat = fromBits (slice c.seq c.off n) ∧
      s.perform i (s.readField w a n) = .next { s with cursors := s.cursors.set a.toNat ⟨true, c.seq, c.off + n⟩,
                                                       dout := d, reply := some (.response ⟨s.status, d, []⟩) } :=
  ⟨_, setDout_toNat (fromBits_slice_lt _ _ _) hn,
    perform_setCursor_setDout hacc (readField_eq_ok.2 ⟨c, hc, hv, hn, hlen, by rw [hv], rfl⟩)⟩

end Performed

end CursorBodies

/-- Settles O14: the capacity check is the only one of the body; decode checks the payload's length. -/
theorem cnewbConstructsACursor : Obligations.CnewbConstructsACursor := by
  intro a count
  refine ⟨by simp [toNat_encode, Instr.fields], fun cfg n hidx hn =>
    decode_encode_payloadLength (Laws.OpcodeRow.cnewb a count) (decide_eq_true hidx) rfl hn,
    fun s hacc => ⟨fun hcap => ?_, fun hcap => ?_⟩⟩
  · exact perform_error hacc (requireCapacity_bind_full hcap)
  · exact perform_setCursor hacc (requireCapacity_bind_fits hcap)

/-- Settles O15: the check of cursor a, then an advance by one bit; a bit is in DOUT as 0 or 1. -/
theorem crdbReadsOneBit : Obligations.CrdbReadsOneBit := by
  intro a
  refine ⟨by simp [toNat_encode, Instr.fields], fun s c hacc hc => ⟨fun hv => ?_, fun hv hlen => ?_,
    fun v hv hbit => ?_⟩⟩
  · exact perform_error hacc (validCursor_bind_invalid hc hv)
  · exact perform_error hacc ((validCursor_bind_valid hc hv).trans (advance_bind_past_end hlen))
  · obtain ⟨hlen, -⟩ := List.getElem?_eq_some_iff.1 hbit
    have hget : c.seq.getD c.off false = v := by rw [List.getD_eq_getElem?_getD, hbit, Option.getD_some]
    rw [← setDout_bool (s := s) v, ← hget]
    exact perform_setCursor_setDout hacc ((validCursor_bind_valid hc hv).trans (advance_bind_within hv hlen))

/-- Settles O16: a field read of all N bits, whose width check passes. -/
theorem crdfReadsAField : Obligations.CrdfReadsAField := by
  intro w a
  refine ⟨by simp [toNat_encode, Instr.fields], fun s c hacc hc => ⟨fun hv => ?_, fun hv hlen => ?_,
    fun hv hlen => ?_⟩⟩
  · exact perform_error hacc (readField_invalid hc hv)
  · exact perform_error hacc (readField_past_end hc hv le_rfl hlen)
  · exact perform_readField hacc hc hv le_rfl hlen

/-- Settles O17: a field read of b bits, with its three checks in order; the number of no bits is 0. -/
theorem crdtReadsLowBits : Obligations.CrdtReadsLowBits := by
  intro w a n
  refine ⟨by simp [toNat_encode, Instr.fields], fun s c hacc hc => ⟨fun hv => ?_, fun hv hwide => ?_,
    fun hv hn hlen => ?_, fun hv hn hlen => ?_⟩⟩
  · exact perform_error hacc (readField_invalid hc hv)
  · exact perform_error hacc (readField_wide hc hv hwide)
  · exact perform_error hacc (readField_past_end hc hv hn hlen)
  · obtain ⟨d, hd, hexec⟩ := perform_readField hacc hc hv hn hlen
    refine ⟨d, hd, fun hzero => BitVec.eq_of_toNat_eq ?_, hexec⟩
    rw [hd, hzero]
    exact Nat.lt_one_iff.1 (fromBits_slice_lt c.seq c.off 0)

/-- Settles O18: the check of cursor a, then an advance by 8·count bits; the output is the run read. -/
theorem crdyReadsBytes : Obligations.CrdyReadsBytes := by
  intro a count
  refine ⟨by simp [toNat_encode, Instr.fields], fun s c hacc hc => ⟨fun hv => ?_, fun hv hlen => ?_,
    fun hv hlen => ⟨readRun c.seq c.off count.toNat, length_readRun _ _ _, fun j hj => getElem?_readRun hj, ?_⟩⟩⟩
  · exact perform_error hacc (validCursor_bind_invalid hc hv)
  · exact perform_error hacc ((validCursor_bind_valid hc hv).trans (advance_bind_past_end hlen))
  · exact perform_setCursor hacc ((validCursor_bind_valid hc hv).trans (advance_bind_within hv hlen))

/-- Settles O19: a query; under the invariant the difference is exact and fits DOUT. -/
theorem cremReturnsTheRemainder : Obligations.CremReturnsTheRemainder := by
  intro a
  refine ⟨by simp [toNat_encode, Instr.fields], fun s c hacc hc => ⟨fun hv => ?_, fun hv hinv => ?_⟩⟩
  · exact perform_query_invalid hacc hc hv
  · obtain ⟨hoff, hlen⟩ := cursor_bounds hinv hc
    refine ⟨_, ?_, perform_query_valid hacc hc hv⟩
    rw [setDout_toNat_of_lt ((Nat.sub_le _ _).trans_lt hlen), Nat.sub_add_cancel hoff]

/-- Settles O20: a query; under the invariant the length fits DOUT. -/
theorem ctotReturnsTheTotal : Obligations.CtotReturnsTheTotal := by
  intro a
  refine ⟨by simp [toNat_encode, Instr.fields], fun s c hacc hc => ⟨fun hv => ?_, fun hv hinv => ?_⟩⟩
  · exact perform_query_invalid hacc hc hv
  · obtain ⟨-, hlen⟩ := cursor_bounds hinv hc
    exact ⟨_, setDout_toNat_of_lt hlen, perform_query_valid hacc hc hv⟩

/-- Settles O21: a query whose value is a single bit. -/
theorem cexhTestsExhaustion : Obligations.CexhTestsExhaustion := by
  intro a
  refine ⟨by simp [toNat_encode, Instr.fields], fun s c hacc hc => ⟨fun hv => ?_, fun hv => ?_⟩⟩
  · exact perform_query_invalid hacc hc hv
  · have hdout : (s.setDout (decide (c.seq.length ≤ c.off)).toNat).dout = if c.seq.length ≤ c.off then 1 else 0 := by
      simp only [setDout_bool, decide_eq_true_eq]
    rw [← hdout]
    exact perform_query_valid hacc hc hv

/-- Settles O22: the check of cursor a is the only one of the body; decode refuses a = b. -/
theorem cspltSplitsTheRemainder : Obligations.CspltSplitsTheRemainder := by
  intro a b
  refine ⟨by simp [toNat_encode, Instr.fields], fun cfg n hidx =>
    decode_encode_selfAlias (Laws.OpcodeRow.csplt a a) (by simp [Instr.indexOk, hidx]) (by simp [Instr.noAlias]),
    fun s c hacc hc => ⟨fun hv => ?_, fun hv => ?_⟩⟩
  · exact perform_error hacc (validCursor_bind_invalid hc hv)
  · exact perform_setCursor hacc (validCursor_bind_valid hc hv)

/-- Settles O23: the check of cursor a is the only one, and the body writes nothing. -/
theorem cbytesExtractsTheImage : Obligations.CbytesExtractsTheImage := by
  intro a
  refine ⟨by simp [toNat_encode, Instr.fields], fun s c hacc hc => ⟨fun hv => ?_, fun hv => ?_⟩⟩
  · exact perform_error hacc (validCursor_bind_invalid hc hv)
  · exact perform_ok (t := s) hacc (validCursor_bind_valid hc hv)

end Sys2Proof.Machine
end

section
/-! PROOFS. The two commands without operands (spec/42_control.md): what decode refuses of their words, what SRST does
by its payload and the halt, and the obligations about NOP and SRST (R230, R231). -/

namespace Sys2Proof.Machine

section BareWord
variable {cfg : Config} {w : Word32} {n : Nat} {r : Row} {f : Fields} {op : BitVec 6} {make : CtxIdx → Instr}

/-- The first check of a defined OP: the row's reserved bits (R87, R94). -/
theorem decode_reservedField (hrow : rowOf (Fields.unpack w).op = some r)
    (hbad : r.reservedOk (Fields.unpack w) = false) : decode cfg w n = .error .reservedField := by
  simp [decode, hrow, hbad]

/-- A row without operands reserves every field but OP. -/
theorem reservedOk_one_reserved_iff : (Row.one .reserved make).reservedOk f = true ↔ f = ⟨f.op, 0, 0, 0, 0⟩ := by
  obtain ⟨op, wsel, a, b, m⟩ := f
  simp [Row.reservedOk, Row.one, CtxUse.zeroIfReserved, ImmUse.reservedZero, and_assoc]

/-- So the one word of such an OP that passes the check has zeros in every other field. -/
theorem decode_reservedField_of_ne_bare (hrow : rowOf op = some (Row.one .reserved make))
    (hop : (Fields.unpack w).op = op) (hw : w ≠ Fields.pack ⟨op, 0, 0, 0, 0⟩) :
    decode cfg w n = .error .reservedField := by
  subst hop
  refine decode_reservedField hrow (Bool.eq_false_iff.2 fun hok => hw ?_)
  calc w = (Fields.unpack w).pack := (Fields.pack_unpack w).symm
    _ = Fields.pack ⟨(Fields.unpack w).op, 0, 0, 0, 0⟩ := congrArg Fields.pack (reservedOk_one_reserved_iff.1 hok)

end BareWord

theorem encode_nop : encode .nop = 0x00000000 := by decide

theorem encode_srst : encode .srst = 0x0000003F := by decide

section Srst
variable {s : State} {f : FaultKind}

theorem raise_running (hrun : s.halted = false) : s.raise f = s.faultEntry f := by
  simp [State.raise, hrun]

theorem raise_halted (hhalt : s.halted = true) : s.raise f = s.notPerformed := by
  simp [State.raise, hhalt]

/-- SRST has no operand to check: it is legal exactly with an empty payload (R89). -/
theorem srst_legal_iff : Instr.srst.legal s.cfg s.payload.length = true ↔ s.payload = [] := by
  simp [Instr.legal, Instr.wf, Instr.indexOk, Instr.noAlias, Instr.payloadNeed]

/-- The reset comes before any look at the halt. -/
theorem exec_srst_of_payload_nil (hp : s.payload = []) : exec .srst s = .next (s.blockReset.respond []) :=
  if_pos (srst_legal_iff.2 hp)

theorem exec_srst_of_payload_ne_nil (hp : s.payload ≠ []) : exec .srst s = .next (s.raise .illegalCmd) :=
  if_neg (mt srst_legal_iff.1 hp)

end Srst

/-- Settles O1: a row without operands, and a body that writes nothing, performed or not. -/
theorem nopDoesNothing : Obligations.NopDoesNothing := by
  refine ⟨encode_nop, fun cfg w n hop hw => ?_, fun s hacc => perform_ok (t := s) hacc rfl,
    fun s hhalt => perform_halted (i := .nop) (body := .ok (s, [])) hhalt⟩
  exact decode_reservedField_of_ne_bare rfl hop (hw.trans_eq encode_nop.symm)

/-- Settles O2: a row without operands; then the payload decides between the reset and ILLEGAL_CMD, and only
ILLEGAL_CMD depends on the halt. -/
theorem srstResetsTheBlock : Obligations.SrstResetsTheBlock := by
  refine ⟨encode_srst, fun cfg w n hop hw => ?_, fun s hp => exec_srst_of_payload_nil hp, fun s hp hrun => ?_,
    fun s hp hhalt => ?_⟩
  · exact decode_reservedField_of_ne_bare rfl hop (hw.trans_eq encode_srst.symm)
  · rw [exec_srst_of_payload_ne_nil hp, raise_running hrun]
  · rw [exec_srst_of_payload_ne_nil hp, raise_halted hhalt]
    rfl

end Sys2Proof.Machine
end

section
/-! PROOFS. One equation of `step` for each kind of interaction, what a halted block does with each
(spec/60_exceptions.md R248, R249), and the obligations about fault entry and the halt. -/

namespace Sys2Proof.Machine

section Interactions
variable {s : State} {c : Command} {e : HostEvent} {rest : List HostEvent} {addr : Nat}

/-- No interaction pending: the block is idle (R257). -/
theorem step_idle (h : s.chan = []) : step s = .next s := by
  simp [step, h]

theorem step_readReg (h : s.chan = .readReg addr :: rest) : step s = .next (s.answerRead addr).closeHead := by
  simp [step, h, closing]

theorem step_resetInput (h : s.chan = .resetInput :: rest) : step s = .next s.resetByInput.closeHead := by
  simp [step, h, closing]

theorem closeHead_of_chan (h : s.chan = e :: rest) : s.closeHead = { s with chan := rest } := by
  simp [State.closeHead, h]

/-- The word and payload of an accepted SRST decode to SRST on every block. -/
theorem decode_of_isAcceptedSrst {cfg : Config} (hc : isAcceptedSrst c = true) : c.decode cfg = .ok .srst := by
  obtain ⟨hword, hpay⟩ := isAcceptedSrst_iff.1 hc
  rw [Command.decode, hword, hpay]
  rfl

/-- An accepted SRST is performed whether or not the block is halted (R231, R248). -/
theorem step_acceptedSrst (h : s.chan = .command c :: rest) (hc : isAcceptedSrst c = true) :
    step s = .next (s.blockReset.respond []).closeHead := by
  have hpay : s.payload = [] := (payload_of_chan h).trans (isAcceptedSrst_iff.1 hc).2
  have hans : answerCommand c s = exec .srst s := by
    simp [answerCommand, hc, decode_of_isAcceptedSrst]
  rw [step_command h, hans, exec_srst_of_payload_nil hpay]
  rfl

/-- A halted block performs no other command (R248). -/
theorem step_halted_of_not_acceptedSrst (hhalt : s.halted = true) (h : s.chan = .command c :: rest)
    (hc : isAcceptedSrst c = false) : step s = .next s.notPerformed.closeHead := by
  have hans : answerCommand c s = .next s.notPerformed := by
    simp [answerCommand, hhalt, hc]
  rw [step_command h, hans]
  rfl

end Interactions

/-- The next interaction is a reset: the reset input, or an SRST that decode accepts (R249). -/
def State.ResetPending (s : State) : Prop :=
  s.chan.head? = some .resetInput ∨
    ∃ c, s.chan.head? = some (.command c) ∧ c.word = 0x0000003F ∧ c.payload = []

section Halt
variable {s t : State}

/-- Either reset gives the reset state, but for the host's side of the channel, halted before or not (R271). -/
theorem step_eq_resetFor_of_resetPending (hr : s.ResetPending) (hstep : step s = .next t) :
    ∃ reply, t = { State.resetFor s.cfg with chan := s.chan.tail, reply := reply } := by
  rcases hr with hhead | ⟨c, hhead, hsrst⟩ <;> obtain ⟨rest, hchan⟩ := List.head?_eq_some_iff.1 hhead
  · rw [step_resetInput hchan] at hstep
    cases hstep
    exact ⟨_, rfl⟩
  · rw [step_acceptedSrst hchan (isAcceptedSrst_iff.2 hsrst)] at hstep
    cases hstep
    exact ⟨_, rfl⟩

/-- Every other step of a halted block keeps STATUS: it idles, answers a register read, or does not perform. -/
theorem step_halted_keeps_status (hhalt : s.halted = true) (hr : ¬ s.ResetPending) (hstep : step s = .next t) :
    t.status = s.status := by
  cases hchan : s.chan with
  | nil =>
    rw [step_idle hchan] at hstep
    cases hstep
    rfl
  | cons e rest =>
    cases e with
    | command c =>
      have hc : isAcceptedSrst c = false :=
        Bool.eq_false_iff.2 fun hc => hr (.inr ⟨c, by rw [hchan]; rfl, isAcceptedSrst_iff.1 hc⟩)
      rw [step_halted_of_not_acceptedSrst hhalt hchan hc] at hstep
      cases hstep
      rfl
    | readReg addr =>
      rw [step_readReg hchan] at hstep
      cases hstep
      rfl
    | resetInput => exact absurd (.inl (by rw [hchan]; rfl)) hr

end Halt

/-- The value fault entry writes: ERRCODE at bits 7:4 and HALT at bit 0 (R27, R247). -/
theorem toNat_statusWord (f : FaultKind) : f.statusWord.toNat = f.code.toNat * 16 + 1 := by
  cases f <;> rfl

/-- Settles O26: a pending reset leads to the reset state, which is not halted; any other step of a halted block
keeps STATUS, and with it the halt. -/
theorem onlyAResetLeavesTheHalt : Obligations.OnlyAResetLeavesTheHalt := by
  intro s t hhalt hstep
  by_cases hr : s.ResetPending
  · obtain ⟨reply, rfl⟩ := step_eq_resetFor_of_resetPending hr hstep
    exact ⟨iff_of_true (halted_resetFor (cfg := s.cfg)) hr, fun _ => ⟨rfl, rfl, rfl, rfl, rfl⟩⟩
  · have hstill : t.halted = true := by
      rw [State.halted, step_halted_keeps_status hhalt hr hstep]
      exact hhalt
    exact ⟨iff_of_false (by simp [hstill]) hr, fun hrun => by simp [hstill] at hrun⟩

/-- Settles O24: STATUS is the word of the kind, and fault entry is a record update of STATUS, FCMD and the reply. -/
theorem faultEntryIsPrecise : Obligations.FaultEntryIsPrecise := by
  refine fun s k => ⟨?_, halted_faultEntry, halted_faultEntry, errCode_faultEntry, toNat_statusWord k, rfl⟩
  cases k <;> rfl

/-- Settles O25: the equation of `step` for each of the three interactions, with the channel written out. -/
theorem haltedBlockPerformsNothing : Obligations.HaltedBlockPerformsNothing := by
  refine fun s e rest hhalt hchan => ⟨?_, ?_, ?_⟩
  · rintro c rfl hc
    have hc : isAcceptedSrst c = false := Bool.eq_false_iff.2 (mt isAcceptedSrst_iff.1 hc)
    rw [step_halted_of_not_acceptedSrst hhalt hchan hc, closeHead_of_chan (s := s.notPerformed) hchan]
    rfl
  · rintro c rfl hword hpay
    rw [step_acceptedSrst hchan (isAcceptedSrst_iff.2 ⟨hword, hpay⟩),
      closeHead_of_chan (s := s.blockReset.respond []) hchan]
    rfl
  · rintro addr rfl
    rw [step_readReg hchan, closeHead_of_chan (s := s.answerRead addr) hchan]
    rfl

end Sys2Proof.Machine
end

section
/-! PROOFS. Every command but SRST as `perform` of a body, and what its body can answer: the writes of a success and
the faults of an error, each said once for all commands (spec/40_sink.md, spec/41_cursor.md, spec/42_control.md). -/

namespace Sys2Proof.Machine

/-- The body of each command, as the meanings of Machine/ give it to `perform`, gathered so that a lemma can speak of
the body of any instruction. `exec_eq_perform_body` ties it to `exec`, for every command but SRST, which checks no halt
and is no `perform`. -/
def commandBody (s : State) : Instr → Effect
  | .nop | .srst => .ok (s, [])
  | .snew a => .ok (s.setSink a Sink.empty, [])
  | .spushb a v => do
    let q ← s.activeSeq a
    s.append a q [v]
  | .sovwr a v => do
    let q ← s.activeSeq a
    require (decide (s.din < q.length)) .bounds
    return (s.setSeq a (q.set s.din v), [])
  | .spushf w a => s.pushField w a (s.fieldWidth w)
  | .spusht w a n => s.pushField w a n.toNat
  | .spushy a _ => do
    let q ← s.activeSeq a
    s.append a q (bytesToSeq s.payload)
  | .spad a => do
    let q ← s.activeSeq a
    return (s.setSeq a (q ++ List.replicate (padCount q.length) false), [])
  | .sapps a b => do
    let q ← s.activeSeq a
    let r ← s.activeSeq b
    s.append a q r
  | .sappc a b => do
    let q ← s.activeSeq a
    let c ← s.validCursor b
    s.append a q c.seq
  | .sfinc a b => do
    let q ← s.activeSeq a
    return ((s.setCursor b (Cursor.over q)).setSink a Sink.consumed, [])
  | .sfinb a => do
    let q ← s.activeSeq a
    return (s.setSink a Sink.consumed, seqToBytes q)
  | .cnewb a count => do
    s.requireCapacity (8 * count.toNat)
    return (s.setCursor a (Cursor.over (bytesToSeq s.payload)), [])
  | .crdb a => do
    let c ← s.validCursor a
    let t ← s.advance a c 1
    return (t.setDout (c.seq.getD c.off false).toNat, [])
  | .crdf w a => s.readField w a (s.fieldWidth w)
  | .crdt w a n => s.readField w a n.toNat
  | .crdy a count => do
    let c ← s.validCursor a
    let t ← s.advance a c (8 * count.toNat)
    return (t, readRun c.seq c.off count.toNat)
  | .crem a => s.query a fun c => c.seq.length - c.off
  | .ctot a => s.query a fun c => c.seq.length
  | .cexh a => s.query a fun c => (decide (c.seq.length ≤ c.off)).toNat
  | .csplt a b => do
    let c ← s.validCursor a
    return (s.setCursor b (Cursor.over (c.seq.drop c.off)), [])
  | .cbytes a => do
    let c ← s.validCursor a
    return (s, seqToBytes c.seq)

section
variable {s t u : State} {i : Instr} {a b : CtxIdx} {c : Cursor} {q r : Bits} {out : List Byte} {f : FaultKind}

theorem exec_eq_perform_body (hi : i ≠ .srst) : exec i s = s.perform i (commandBody s i) := by
  cases i with
  | srst => exact absurd rfl hi
  | _ => rfl

/-! ### What a success writes -/

/-- The ways a command can succeed on `s`, one per kind of write: the next state before the response, and the output
bytes. A push is any command that appends; a scalar read and a query write DOUT. -/
inductive Performed (s : State) : Instr → State → List Byte → Prop
  | nop : Performed s .nop s []
  | snew (a : CtxIdx) : Performed s (.snew a) (s.setSink a Sink.empty) []
  | push {i : Instr} {a : CtxIdx} {q r : Bits} (happ : i.appends = true) (hw : i.writesSink = some a)
      (hs : s.sink a = some ⟨.active, q⟩) (hfit : s.Inv → (q ++ r).length ≤ s.cfg.capBits) :
      Performed s i (s.setSeq a (q ++ r)) []
  | sovwr {a : CtxIdx} {q : Bits} (v : Bool) (hs : s.sink a = some ⟨.active, q⟩) :
      Performed s (.sovwr a v) (s.setSeq a (q.set s.din v)) []
  | sfinc {a : CtxIdx} {q : Bits} (b : CtxIdx) (hs : s.sink a = some ⟨.active, q⟩) :
      Performed s (.sfinc a b) ((s.setCursor b (Cursor.over q)).setSink a Sink.consumed) []
  | sfinb {a : CtxIdx} {q : Bits} (hs : s.sink a = some ⟨.active, q⟩) :
      Performed s (.sfinb a) (s.setSink a Sink.consumed) (seqToBytes q)
  | cnewb {a : CtxIdx} {count : Imm} (hfit : 8 * count.toNat ≤ s.cfg.capBits) :
      Performed s (.cnewb a count) (s.setCursor a (Cursor.over (bytesToSeq s.payload))) []
  | csplt {a : CtxIdx} {c : Cursor} (b : CtxIdx) (hc : s.cursor a = some c) :
      Performed s (.csplt a b) (s.setCursor b (Cursor.over (c.seq.drop c.off))) []
  | scalarRead {i : Instr} {a : CtxIdx} {c : Cursor} {n : Nat} (v : Nat) (hdout : i.writesDout = true)
      (hw : i.writesCursor = some a) (hc : s.cursor a = some c) (hv : c.valid = true)
      (hlen : c.off + n ≤ c.seq.length) :
      Performed s i ((s.setCursor a { c with off := c.off + n }).setDout v) []
  | crdy {a : CtxIdx} {c : Cursor} {count : Imm} (hc : s.cursor a = some c) (hv : c.valid = true)
      (hlen : c.off + 8 * count.toNat ≤ c.seq.length) :
      Performed s (.crdy a count) (s.setCursor a { c with off := c.off + 8 * count.toNat })
        (readRun c.seq c.off count.toNat)
  | query {i : Instr} (v : Nat) (hdout : i.writesDout = true) (hw : i.writesCursor = none) :
      Performed s i (s.setDout v) []
  | cbytes {a : CtxIdx} {c : Cursor} (hc : s.cursor a = some c) : Performed s (.cbytes a) s (seqToBytes c.seq)

/-- An append that succeeds is a push. -/
theorem performed_append (happ : i.appends = true) (hw : i.writesSink = some a)
    (hs : s.sink a = some ⟨.active, q⟩) (h : s.append a q r = .ok (t, out)) : Performed s i t out := by
  obtain ⟨hfit, rfl, rfl⟩ := append_eq_ok.1 h
  exact .push happ hw hs fun _ => by simpa using hfit

theorem performed_pushField {w : WSel} {n : Nat} (happ : i.appends = true) (hw : i.writesSink = some a)
    (h : s.pushField w a n = .ok (t, out)) : Performed s i t out := by
  obtain ⟨q, hs, -, hfit, rfl, rfl⟩ := pushField_eq_ok.1 h
  exact .push happ hw hs fun _ => by simpa using hfit

theorem performed_readField {w : WSel} {n : Nat} (hdout : i.writesDout = true) (hw : i.writesCursor = some a)
    (h : s.readField w a n = .ok (t, out)) : Performed s i t out := by
  obtain ⟨c, hc, hv, -, hlen, rfl, rfl⟩ := readField_eq_ok.1 h
  exact .scalarRead _ hdout hw hc hv hlen

theorem performed_query {value : Cursor → Nat} (hdout : i.writesDout = true) (hw : i.writesCursor = none)
    (h : s.query a value = .ok (t, out)) : Performed s i t out := by
  obtain ⟨c, -, -, rfl, rfl⟩ := query_eq_ok.1 h
  exact .query _ hdout hw

/-- Padding to a multiple of 8 stays within CAP_BITS, which is one (R8, R117). -/
theorem length_pad_le (hinv : s.Inv) (hs : s.sink a = some ⟨.active, q⟩) :
    (q ++ List.replicate (padCount q.length) false).length ≤ s.cfg.capBits := by
  have hwf := sink_wf hinv.memory hs
  simp only [Sink.wf, Bool.and_eq_true, decide_eq_true_eq] at hwf
  obtain ⟨-, -, -, -, hmod, -, -⟩ := of_decide_eq_true hinv.config
  simpa using padCount_le hmod hwf.1

/-- A body that succeeds has performed its command in one of the ways of `Performed`. -/
theorem performed_of_body_eq_ok (hi : i ≠ .srst) (h : commandBody s i = .ok (t, out)) : Performed s i t out := by
  cases i with
  | srst => exact absurd rfl hi
  | nop => cases h; exact .nop
  | snew a => cases h; exact .snew a
  | spushb a v =>
    obtain ⟨q, hs, h⟩ := bind_eq_ok.1 h
    exact performed_append rfl rfl (activeSeq_eq_ok.1 hs) h
  | sovwr a v =>
    obtain ⟨q, hs, h⟩ := bind_eq_ok.1 h
    obtain ⟨-, -, h⟩ := bind_eq_ok.1 h
    cases h
    exact .sovwr v (activeSeq_eq_ok.1 hs)
  | spushf w a => exact performed_pushField rfl rfl h
  | spusht w a n => exact performed_pushField rfl rfl h
  | spushy a count =>
    obtain ⟨q, hs, h⟩ := bind_eq_ok.1 h
    exact performed_append rfl rfl (activeSeq_eq_ok.1 hs) h
  | spad a =>
    obtain ⟨q, hs, h⟩ := bind_eq_ok.1 h
    cases h
    exact .push rfl rfl (activeSeq_eq_ok.1 hs) fun hinv => length_pad_le hinv (activeSeq_eq_ok.1 hs)
  | sapps a b =>
    obtain ⟨q, hs, h⟩ := bind_eq_ok.1 h
    obtain ⟨r, -, h⟩ := bind_eq_ok.1 h
    exact performed_append rfl rfl (activeSeq_eq_ok.1 hs) h
  | sappc a b =>
    obtain ⟨q, hs, h⟩ := bind_eq_ok.1 h
    obtain ⟨c, -, h⟩ := bind_eq_ok.1 h
    exact performed_append rfl rfl (activeSeq_eq_ok.1 hs) h
  | sfinc a b =>
    obtain ⟨q, hs, h⟩ := bind_eq_ok.1 h
    cases h
    exact .sfinc b (activeSeq_eq_ok.1 hs)
  | sfinb a =>
    obtain ⟨q, hs, h⟩ := bind_eq_ok.1 h
    cases h
    exact .sfinb (activeSeq_eq_ok.1 hs)
  | cnewb a count =>
    obtain ⟨⟨⟩, hcap, h⟩ := bind_eq_ok.1 h
    cases h
    exact .cnewb (of_decide_eq_true (require_eq_ok.1 hcap))
  | crdb a =>
    obtain ⟨c, hc, h⟩ := bind_eq_ok.1 h
    obtain ⟨t', hadv, h⟩ := bind_eq_ok.1 h
    obtain ⟨hc, hv⟩ := validCursor_eq_ok.1 hc
    obtain ⟨hlen, rfl⟩ := advance_eq_ok.1 hadv
    cases h
    exact .scalarRead _ rfl rfl hc hv hlen
  | crdf w a => exact performed_readField rfl rfl h
  | crdt w a n => exact performed_readField rfl rfl h
  | crdy a count =>
    obtain ⟨c, hc, h⟩ := bind_eq_ok.1 h
    obtain ⟨t', hadv, h⟩ := bind_eq_ok.1 h
    obtain ⟨hc, hv⟩ := validCursor_eq_ok.1 hc
    obtain ⟨hlen, rfl⟩ := advance_eq_ok.1 hadv
    cases h
    exact .crdy hc hv hlen
  | crem a => exact performed_query rfl rfl h
  | ctot a => exact performed_query rfl rfl h
  | cexh a => exact performed_query rfl rfl h
  | csplt a b =>
    obtain ⟨c, hc, h⟩ := bind_eq_ok.1 h
    cases h
    exact .csplt b (validCursor_eq_ok.1 hc).1
  | cbytes a =>
    obtain ⟨c, hc, h⟩ := bind_eq_ok.1 h
    cases h
    exact .cbytes (validCursor_eq_ok.1 hc).1

/-- A performed command leaves the parameters, the channel and the fault registers. -/
theorem Performed.keeps (h : Performed s i t out) :
    t.cfg = s.cfg ∧ t.chan = s.chan ∧ t.status = s.status ∧ t.fcmd = s.fcmd := by
  cases h <;> exact ⟨rfl, rfl, rfl, rfl⟩

theorem Performed.halted_eq (h : Performed s i t out) : t.halted = s.halted := by
  obtain ⟨-, -, hstatus, -⟩ := h.keeps
  rw [State.halted, hstatus, State.halted]

/-- Everything `exec` can answer for a command but SRST. -/
theorem exec_cases (hi : i ≠ .srst) (h : exec i s = .next u) :
    (s.halted = true ∧ u = s.notPerformed) ∨
    (s.accepts i = true ∧ ∃ t out, commandBody s i = .ok (t, out) ∧ Performed s i t out ∧ u = t.respond out) ∨
    (s.halted = false ∧ ∃ f, u = s.faultEntry f) := by
  obtain hnot | ⟨hacc, t, out, hbody, hu⟩ | hfault := perform_cases ((exec_eq_perform_body hi).symm.trans h)
  · exact .inl hnot
  · exact .inr (.inl ⟨hacc, t, out, hbody, performed_of_body_eq_ok hi hbody, hu⟩)
  · exact .inr (.inr hfault)

/-- A command after which the block runs was accepted and its body succeeded. -/
theorem exec_succeeds (hi : i ≠ .srst) (h : exec i s = .next u) (hu : u.halted = false) :
    s.accepts i = true ∧ ∃ t out, commandBody s i = .ok (t, out) ∧ u = t.respond out := by
  obtain ⟨hhalt, rfl⟩ | ⟨hacc, t, out, hbody, -, hu⟩ | ⟨-, f, rfl⟩ := exec_cases hi h
  · exact absurd (hu.symm.trans hhalt) (by decide)
  · exact ⟨hacc, t, out, hbody, hu⟩
  · exact absurd (hu.symm.trans halted_faultEntry) (by decide)

end

end Sys2Proof.Machine
end

section
/-! PROOFS. The invariant of the block: it holds after reset, and every kind of step keeps it (spec/10_state.md R25 to
R29, R38, R39). -/

namespace Sys2Proof.Machine

section
variable {s t u : State} {i : Instr} {a : CtxIdx} {c : Cursor} {cmd : Command} {q : Bits} {out : List Byte}
  {f : FaultKind}

/-- Everything the block can answer a command: nothing (halted), ILLEGAL_CMD (decode refuses it), or what `exec`
answers for the decoded instruction. -/
theorem answerCommand_cases (h : answerCommand cmd s = .next u) :
    (s.halted = true ∧ u = s.notPerformed) ∨ (s.halted = false ∧ u = s.faultEntry .illegalCmd) ∨
    ∃ i, cmd.decode s.cfg = .ok i ∧ exec i s = .next u := by
  unfold answerCommand at h
  cases hd : cmd.decode s.cfg with
  | ok i =>
    split_ifs at h with hhalt
    · simp only [Bool.and_eq_true] at hhalt
      injection h with h
      exact .inl ⟨hhalt.1, h.symm⟩
    · exact .inr (.inr ⟨i, rfl, by simpa [hd] using h⟩)
  | error e =>
    cases hh : s.halted with
    | false =>
      rw [← answerCommand, answerCommand_refused hh hd] at h
      injection h with h
      exact .inr (.inl ⟨rfl, h.symm⟩)
    | true =>
      have hsrst : isAcceptedSrst cmd = false := by
        refine Bool.eq_false_iff.2 fun hc => ?_
        rw [decode_of_isAcceptedSrst hc] at hd
        cases hd
      simp only [hh, hsrst, Bool.not_false, Bool.and_self, if_true] at h
      injection h with h
      exact .inl ⟨rfl, h.symm⟩

/-! ### Contexts stay canonical -/

theorem sink_wf_active_iff {cap : Nat} : Sink.wf cap ⟨.active, q⟩ = true ↔ q.length ≤ cap := by
  simp [Sink.wf]

theorem sink_wf_empty {cap : Nat} : Sink.wf cap Sink.empty = true := by
  simp [Sink.wf, Sink.empty]

theorem sink_wf_consumed {cap : Nat} : Sink.wf cap Sink.consumed = true := by
  simp [Sink.wf, Sink.consumed]

theorem cursor_wf_valid_iff {cap : Nat} (hv : c.valid = true) :
    Cursor.wf cap c = true ↔ c.seq.length ≤ cap ∧ c.off ≤ c.seq.length := by
  simp [Cursor.wf, hv]

theorem cursor_wf_over_iff {cap : Nat} : Cursor.wf cap (Cursor.over q) = true ↔ q.length ≤ cap :=
  (cursor_wf_valid_iff rfl).trans (and_iff_left (Nat.zero_le _))

/-- R26 for a sink and for a view. -/
theorem length_sink_le (h : Memory.wf s = true) (hs : s.sink a = some ⟨.active, q⟩) : q.length ≤ s.cfg.capBits :=
  sink_wf_active_iff.1 (sink_wf h hs)

theorem length_view_le (h : Memory.wf s = true) (hc : s.cursor a = some c) : c.seq.length ≤ s.cfg.capBits := by
  have hwf := cursor_wf h hc
  simp only [Cursor.wf, Bool.and_eq_true, decide_eq_true_eq] at hwf
  obtain ⟨⟨hlen, -⟩, -⟩ := hwf
  exact hlen

/-- A read moves the offset of a valid cursor within its view. -/
theorem memory_wf_advance {n : Nat} (h : Memory.wf s = true) (hc : s.cursor a = some c) (hv : c.valid = true)
    (hlen : c.off + n ≤ c.seq.length) : Memory.wf (s.setCursor a { c with off := c.off + n }) = true := by
  have hle : c.seq.length ≤ s.cfg.capBits := length_view_le h hc
  exact memory_wf_setCursor h ((cursor_wf_valid_iff (c := { c with off := c.off + n }) hv).2 ⟨hle, hlen⟩)

theorem Performed.memory_wf (hacc : s.accepts i = true) (hinv : s.Inv) (h : Performed s i t out) :
    Memory.wf t = true := by
  have hm := hinv.memory
  cases h with
  | nop => exact hm
  | snew a => exact memory_wf_setSink hm sink_wf_empty
  | push _ _ _ hfit => exact memory_wf_setSink hm (sink_wf_active_iff.2 (hfit hinv))
  | sovwr v hs => exact memory_wf_setSink hm (sink_wf_active_iff.2 (by simpa using length_sink_le hm hs))
  | sfinc b hs =>
    exact memory_wf_setSink (memory_wf_setCursor hm (cursor_wf_over_iff.2 (length_sink_le hm hs))) sink_wf_consumed
  | sfinb => exact memory_wf_setSink hm sink_wf_consumed
  | cnewb hfit =>
    refine memory_wf_setCursor hm (cursor_wf_over_iff.2 ?_)
    rwa [length_bytesToSeq, payload_length_of_accepts hacc]
  | csplt b hc =>
    refine memory_wf_setCursor hm (cursor_wf_over_iff.2 ?_)
    rw [List.length_drop]
    exact (Nat.sub_le _ _).trans (length_view_le hm hc)
  | scalarRead v _ _ hc hv hlen => exact memory_wf_advance hm hc hv hlen
  | crdy hc hv hlen => exact memory_wf_advance hm hc hv hlen
  | query => exact hm
  | cbytes => exact hm

/-! ### The invariant -/

/-- DOUT holds WORD_W bits after a command that held them before (R29). -/
theorem Performed.dout_lt (hinv : s.Inv) (h : Performed s i t out) : t.dout.toNat < 2 ^ t.cfg.wordW.bits := by
  cases h with
  | scalarRead | query => exact setDout_lt
  | _ => exact hinv.dout

theorem Performed.inv (hacc : s.accepts i = true) (hinv : s.Inv) (h : Performed s i t out) : t.Inv := by
  obtain ⟨hcfg, -, hstatus, hfcmd⟩ := h.keeps
  refine ⟨hcfg ▸ hinv.config, h.memory_wf hacc hinv, hstatus ▸ hinv.status, fun hrun => ?_, h.dout_lt hinv⟩
  rw [hfcmd]
  exact hinv.fcmd (h.halted_eq ▸ hrun)

/-- The response is not part of the invariant. -/
theorem inv_respond (h : s.Inv) : (s.respond out).Inv :=
  ⟨h.config, h.memory, h.status, h.fcmd, h.dout⟩

theorem inv_answerRead {addr : Nat} (h : s.Inv) : (s.answerRead addr).Inv :=
  ⟨h.config, h.memory, h.status, h.fcmd, h.dout⟩

theorem inv_closeHead (h : s.Inv) : s.closeHead.Inv :=
  ⟨h.config, h.memory, h.status, h.fcmd, h.dout⟩

/-- Fault entry writes a legal STATUS, and FCMD of a halted block is free (R27, R28). -/
theorem inv_faultEntry (h : s.Inv) : (s.faultEntry f).Inv :=
  ⟨h.config, h.memory, statusWord_mem f, fun hrun => absurd (hrun.symm.trans halted_faultEntry) (by decide), h.dout⟩

theorem inv_resetFor {cfg : Config} (h : cfg.wf = true) : (State.resetFor cfg).Inv :=
  ⟨h, memory_wf_resetFor cfg, by simp [legalStatus], fun _ => rfl, Nat.two_pow_pos _⟩

/-- Reset gives the reset state but for the channel and the reply. -/
theorem inv_blockReset (h : s.Inv) : s.blockReset.Inv :=
  have hreset := inv_resetFor h.config
  ⟨hreset.config, hreset.memory, hreset.status, hreset.fcmd, hreset.dout⟩

theorem inv_resetByInput (h : s.Inv) : s.resetByInput.Inv :=
  have hreset := inv_blockReset h
  ⟨hreset.config, hreset.memory, hreset.status, hreset.fcmd, hreset.dout⟩

/-- SRST resets the block, or is refused for its payload. -/
theorem exec_srst_cases (h : exec .srst s = .next u) :
    u = s.blockReset.respond [] ∨ (s.halted = true ∧ u = s.notPerformed) ∨
    (s.halted = false ∧ u = s.faultEntry .illegalCmd) := by
  by_cases hp : s.payload = []
  · rw [exec_srst_of_payload_nil hp] at h
    injection h with h
    exact .inl h.symm
  · rw [exec_srst_of_payload_ne_nil hp] at h
    injection h with h
    cases hh : s.halted with
    | true => exact .inr (.inl ⟨rfl, h.symm.trans (raise_halted hh)⟩)
    | false => exact .inr (.inr ⟨rfl, h.symm.trans (raise_running hh)⟩)

theorem exec_inv (hinv : s.Inv) (h : exec i s = .next u) : u.Inv := by
  by_cases hi : i = .srst
  · subst hi
    obtain rfl | ⟨-, rfl⟩ | ⟨-, rfl⟩ := exec_srst_cases h
    · exact inv_respond (inv_blockReset hinv)
    · exact inv_respond hinv
    · exact inv_faultEntry hinv
  · obtain ⟨-, rfl⟩ | ⟨hacc, t, out, -, hperf, rfl⟩ | ⟨-, f, rfl⟩ := exec_cases hi h
    · exact inv_respond hinv
    · exact inv_respond (hperf.inv hacc hinv)
    · exact inv_faultEntry hinv

theorem answerCommand_inv (hinv : s.Inv) (h : answerCommand cmd s = .next u) : u.Inv := by
  obtain ⟨-, rfl⟩ | ⟨-, rfl⟩ | ⟨i, -, hexec⟩ := answerCommand_cases h
  · exact inv_respond hinv
  · exact inv_faultEntry hinv
  · exact exec_inv hinv hexec

end

/-- Settles O32: the contexts are canonical and empty, the registers are zero. -/
theorem resetSatisfiesTheInvariant : Obligations.ResetSatisfiesTheInvariant :=
  fun _ hcfg => inv_resetFor hcfg

/-- Settles O33: by the kind of interaction; a command is not performed, a fault entry, a reset, or one of the writes of
`Performed`, and each keeps the invariant. -/
theorem everyStepKeepsTheInvariant : Obligations.EveryStepKeepsTheInvariant := by
  intro s t hinv hstep
  cases hchan : s.chan with
  | nil =>
    rw [step_idle hchan] at hstep
    cases hstep
    exact hinv
  | cons e rest =>
    cases e with
    | command c =>
      rw [step_command hchan] at hstep
      obtain ⟨u, hans, rfl⟩ := closing_eq_next.1 hstep
      exact inv_closeHead (answerCommand_inv hinv hans)
    | readReg addr =>
      rw [step_readReg hchan] at hstep
      cases hstep
      exact inv_closeHead (inv_answerRead hinv)
    | resetInput =>
      rw [step_resetInput hchan] at hstep
      cases hstep
      exact inv_closeHead (inv_resetByInput hinv)

end Sys2Proof.Machine
end

section
/-! PROOFS. Encoding and decoding as inverses (spec/30_encoding.md R81 to R95), and the obligations about encoded,
accepted, spelled-out and assembled words. -/

namespace Sys2Proof.Machine

section
variable {cfg : Config} {w : Word32} {n : Nat} {i j : Instr} {r : Row} {f : Fields} {u : CtxUse} {l : AsmLine}

/-- Every instruction has its row of the opcode map (R86). -/
theorem opcodeRow (i : Instr) : Laws.OpcodeRow.Statement i := by
  cases i with
  | nop => exact Laws.OpcodeRow.nop
  | snew a => exact Laws.OpcodeRow.snew a
  | spushb a v => exact Laws.OpcodeRow.spushb a v
  | sovwr a v => exact Laws.OpcodeRow.sovwr a v
  | spushf w a => exact Laws.OpcodeRow.spushf w a
  | spusht w a n => exact Laws.OpcodeRow.spusht w a n
  | spushy a count => exact Laws.OpcodeRow.spushy a count
  | spad a => exact Laws.OpcodeRow.spad a
  | sapps a b => exact Laws.OpcodeRow.sapps a b
  | sappc a b => exact Laws.OpcodeRow.sappc a b
  | sfinc a b => exact Laws.OpcodeRow.sfinc a b
  | sfinb a => exact Laws.OpcodeRow.sfinb a
  | cnewb a count => exact Laws.OpcodeRow.cnewb a count
  | crdb a => exact Laws.OpcodeRow.crdb a
  | crdf w a => exact Laws.OpcodeRow.crdf w a
  | crdt w a n => exact Laws.OpcodeRow.crdt w a n
  | crdy a count => exact Laws.OpcodeRow.crdy a count
  | crem a => exact Laws.OpcodeRow.crem a
  | ctot a => exact Laws.OpcodeRow.ctot a
  | cexh a => exact Laws.OpcodeRow.cexh a
  | csplt a b => exact Laws.OpcodeRow.csplt a b
  | cbytes a => exact Laws.OpcodeRow.cbytes a
  | srst => exact Laws.OpcodeRow.srst

/-- The decoder on an encoded word: the instruction itself, exactly when it is well formed and its payload fits. -/
theorem decode_encode_eq_ok_iff :
    decode cfg (encode i) n = .ok j ↔ i.wf cfg = true ∧ n = i.payloadNeed ∧ i = j := by
  simp only [decode_encode_eq_checks (opcodeRow i), ite_error_eq_ok_iff, Instr.wf, Bool.not_eq_true',
    Bool.not_eq_false, bne_iff_ne, ne_eq, not_not, Except.ok.injEq, Bool.and_eq_true, and_assoc]

/-! ### An accepted row keeps every field -/

/-- An immediate whose bits 15:1 are zero is the immediate of its bit 0 (R83). -/
theorem immOfBit_getElem_zero {m : Imm} (h : m.extractLsb' 1 15 = 0#15) : immOfBit m[0] = m := by
  have hhigh : m.toNat >>> 1 % 2 ^ 15 = 0 := by simpa using congrArg BitVec.toNat h
  rw [Nat.shiftRight_eq_div_pow] at hhigh
  have := m.isLt
  apply BitVec.eq_of_toNat_eq
  rw [toNat_immOfBit, BitVec.getElem_eq_testBit_toNat, Nat.testBit_zero]
  rcases Nat.mod_two_eq_zero_or_one m.toNat with hbit | hbit <;> simp [hbit] <;> omega

/-- The instruction of a row has the fields it was made of, when the reserved ones are zero: no bit is ignored (R87).
In each row the reserved fields are the ones the instruction does not hold. -/
theorem fields_make_of_reservedOk (hr : rowOf f.op = some r) (hok : r.reservedOk f = true) :
    (r.make (WSel.ofBits f.wsel) f.ctxa f.ctxb f.imm).fields = f := by
  obtain ⟨op, wsel, a, b, m⟩ := f
  have hop : BitVec.ofNat 6 op.toNat = op := by simp
  unfold rowOf at hr
  split at hr
  case h_24 => cases hr
  all_goals
    rename_i hval
    rw [hval] at hop
    cases hr
    subst hop
    simp_all [Row.reservedOk, Row.one, Row.withImm, Row.two, CtxUse.zeroIfReserved, ImmUse.reservedZero,
      Instr.fields, immOfBit_getElem_zero]

/-- What decode accepts is the encoding of what it answers. -/
theorem encode_of_decode_eq_ok (h : decode cfg w n = .ok i) : encode i = w := by
  obtain ⟨r, hr, hok, -, -, -, rfl⟩ := decode_eq_ok_iff.1 h
  rw [encode, fields_make_of_reservedOk hr hok, Fields.pack_unpack]

/-! ### Assembled lines (R95) -/

/-- The byte list of a line is as long as its instruction needs, since its length fits IMM. -/
theorem payloadNeed_instr (h : l.payload.length < 2 ^ 16) : l.instr.payloadNeed = l.payload.length := by
  cases l with
  | spushy a bytes => exact Nat.mod_eq_of_lt h
  | cnewb a bytes => exact Nat.mod_eq_of_lt h
  | _ => rfl

theorem decode_assemble_eq_ok_iff (hlen : l.payload.length < 2 ^ 16) :
    (assemble l).decode cfg = .ok i ↔ l.instr.wf cfg = true ∧ l.instr = i := by
  rw [Command.decode, assemble, decode_encode_eq_ok_iff, payloadNeed_instr hlen, eq_self, true_and]

/-- The lines that name a value for DIN (R95). -/
theorem namesDin_of_din_ne_zero (h : l.din ≠ 0) :
    (∃ a x v, l = .sovwr a x v) ∨ (∃ w a v, l = .spushf w a v) ∨ ∃ w a v n, l = .spusht w a v n := by
  cases l with
  | sovwr a x v => exact .inl ⟨a, x, v, rfl⟩
  | spushf w a v => exact .inr (.inl ⟨w, a, v, rfl⟩)
  | spusht w a v n => exact .inr (.inr ⟨w, a, v, n, rfl⟩)
  | _ => exact absurd rfl h

end

/-- Settles O34: the encoding of an instruction passes every check of its row. -/
theorem decodeInvertsEncode : Obligations.DecodeInvertsEncode :=
  fun _ _ hwf => decode_encode_eq_ok_iff.2 ⟨hwf, rfl, rfl⟩

/-- Settles O35: an accepted word is the encoding of its instruction, so what decode checks of it are the operand checks
of that instruction. -/
theorem acceptedWordsAreEncodings : Obligations.AcceptedWordsAreEncodings := by
  intro cfg w n i h
  have hw := encode_of_decode_eq_ok h
  subst hw
  obtain ⟨hwf, hn, -⟩ := decode_encode_eq_ok_iff.1 h
  exact ⟨rfl, hwf, hn⟩

/-- Settles O37: the decoder evaluated on each word. -/
theorem specWordsDecode : Obligations.SpecWordsDecode := by
  unfold Obligations.SpecWordsDecode
  decide

/-- Settles O38: an assembled command is the encoding of the line's instruction with the payload it needs. -/
theorem assembledLinesDecode : Obligations.AssembledLinesDecode :=
  fun _ _ hwf hlen => ⟨(decode_assemble_eq_ok_iff hlen).2 ⟨hwf, rfl⟩, namesDin_of_din_ne_zero⟩

end Sys2Proof.Machine
end

section
/-! PROOFS. What a command leaves unchanged and how the contexts grow (spec/20_memory.md R60, R67; spec/10_state.md R23,
R25, R29, R36), by the writes of `Performed`. -/

namespace Sys2Proof.Machine

section
variable {s t u : State} {i : Instr} {a x : CtxIdx} {c : Cursor} {q : Bits} {out : List Byte}

theorem not_writes_of_appends (h : i.appends = true) : i.writesCursor = none ∧ i.writesDout = false := by
  cases i with
  | spushb | spushf | spusht | spushy | spad | sapps | sappc => exact ⟨rfl, rfl⟩
  | _ => cases h

theorem not_writes_of_writesDout (h : i.writesDout = true) : i.writesSink = none ∧ i.appends = false := by
  cases i with
  | crdb | crdf | crdt | crem | ctot | cexh => exact ⟨rfl, rfl⟩
  | _ => cases h

/-- A command but SRST leaves every context and DOUT, or it is performed on a running block. -/
theorem exec_keeps_or_performs (hi : i ≠ .srst) (h : exec i s = .next u) :
    (u.cfg = s.cfg ∧ u.chan = s.chan ∧ u.sinks = s.sinks ∧ u.cursors = s.cursors ∧ u.dout = s.dout) ∨
    (s.halted = false ∧ ∃ t out, Performed s i t out ∧ u = t.respond out) := by
  obtain ⟨-, rfl⟩ | ⟨hacc, t, out, -, hperf, rfl⟩ | ⟨-, f, rfl⟩ := exec_cases hi h
  · exact .inl ⟨rfl, rfl, rfl, rfl, rfl⟩
  · exact .inr ⟨(accepts_iff.1 hacc).1, t, out, hperf, rfl⟩
  · exact .inl ⟨rfl, rfl, rfl, rfl, rfl⟩

/-! ### The frame of a performed command -/

theorem Performed.sink_eq (h : Performed s i t out) (hx : i.writesSink ≠ some x) : t.sink x = s.sink x := by
  have hne : ∀ {a}, i.writesSink = some a → x ≠ a := fun hw hxa => hx (hxa ▸ hw)
  cases h with
  | snew a => exact sink_setSink_ne (hne rfl)
  | push _ hw => exact sink_setSink_ne (hne hw)
  | sovwr => exact sink_setSink_ne (hne rfl)
  | sfinc => exact sink_setSink_ne (hne rfl)
  | sfinb => exact sink_setSink_ne (hne rfl)
  | _ => rfl

theorem Performed.cursor_eq (h : Performed s i t out) (hx : i.writesCursor ≠ some x) : t.cursor x = s.cursor x := by
  have hne : ∀ {a}, i.writesCursor = some a → x ≠ a := fun hw hxa => hx (hxa ▸ hw)
  cases h with
  | sfinc b => exact cursor_setCursor_ne (hne rfl)
  | cnewb => exact cursor_setCursor_ne (hne rfl)
  | csplt b => exact cursor_setCursor_ne (hne rfl)
  | scalarRead v _ hw => exact cursor_setCursor_ne (hne hw)
  | crdy => exact cursor_setCursor_ne (hne rfl)
  | _ => rfl

/-- The numbers of contexts do not change. -/
theorem Performed.length_eq (h : Performed s i t out) :
    t.sinks.length = s.sinks.length ∧ t.cursors.length = s.cursors.length := by
  cases h <;> simp

theorem Performed.dout_eq (h : Performed s i t out) (hd : i.writesDout = false) : t.dout = s.dout := by
  cases h with
  | scalarRead v hdout | query v hdout => rw [hdout] at hd; cases hd
  | _ => rfl

/-! ### Growth -/

/-- A push leaves the old sequence a beginning of the new one (R122). -/
theorem Performed.sink_append (h : Performed s i t out) (happ : i.appends = true) (hw : i.writesSink = some a)
    (hs : s.sink a = some ⟨.active, q⟩) : ∃ r, t.sink a = some ⟨.active, q ++ r⟩ := by
  cases h with
  | @push _ a' q' r _ hw' hs' _ =>
    cases hw'.symm.trans hw
    cases hs'.symm.trans hs
    exact ⟨r, sink_setSink_self hs⟩
  | scalarRead v hdout | query v hdout =>
    exact absurd (happ.symm.trans (not_writes_of_writesDout hdout).2) (by decide)
  | _ => cases happ

theorem Performed.sink_overwrite {v : Bool} (h : Performed s (.sovwr a v) t out)
    (hs : s.sink a = some ⟨.active, q⟩) : t.sink a = some ⟨.active, q.set s.din v⟩ := by
  cases h with
  | push happ => cases happ
  | sovwr v hs' =>
    cases hs'.symm.trans hs
    exact sink_setSink_self hs
  | scalarRead v hdout | query v hdout => cases hdout

/-- A read moves the offset of its cursor up, within the view (R25). -/
theorem cursor_advance {n : Nat} (hc : s.cursor x = some c) (hv : c.valid = true)
    (hlen : c.off + n ≤ c.seq.length) :
    ∃ off', (s.setCursor x { c with off := c.off + n }).cursor x = some ⟨true, c.seq, off'⟩ ∧ c.off ≤ off' ∧
      off' ≤ c.seq.length :=
  ⟨c.off + n, by rw [cursor_setCursor_self hc, hv], Nat.le_add_right _ _, hlen⟩

theorem Performed.cursor_advances (h : Performed s i t out) (hcnewb : ∀ n, i ≠ .cnewb x n)
    (hsfinc : ∀ a, i ≠ .sfinc a x) (hcsplt : ∀ a, i ≠ .csplt a x) (hc : s.cursor x = some c)
    (hv : c.valid = true) (hoff : c.off ≤ c.seq.length) :
    ∃ off', t.cursor x = some ⟨true, c.seq, off'⟩ ∧ c.off ≤ off' ∧ off' ≤ c.seq.length := by
  by_cases hx : i.writesCursor = some x
  · cases h with
    | push happ => exact absurd ((not_writes_of_appends happ).1.symm.trans hx) (by simp)
    | sfinc b => cases hx; exact absurd rfl (hsfinc _)
    | cnewb => cases hx; exact absurd rfl (hcnewb _)
    | csplt b => cases hx; exact absurd rfl (hcsplt _)
    | scalarRead v _ hw hc' _ hlen =>
      cases hw.symm.trans hx
      cases hc'.symm.trans hc
      exact cursor_advance hc hv hlen
    | crdy hc' _ hlen =>
      cases hx
      cases hc'.symm.trans hc
      exact cursor_advance hc hv hlen
    | query v _ hw => exact absurd (hw.symm.trans hx) (by simp)
    | _ => cases hx
  · exact ⟨c.off, by rw [h.cursor_eq hx, hc, ← hv], le_rfl, hoff⟩

end

/-- Settles O39: what is not performed writes no context, and a performed command writes the contexts of its rule. -/
theorem contextsAreIndependent : Obligations.ContextsAreIndependent := by
  intro i s u hi h
  obtain ⟨hcfg, hchan, hsinks, hcursors, -⟩ | ⟨-, t, out, hperf, rfl⟩ := exec_keeps_or_performs hi h
  · exact ⟨hcfg, hchan, congrArg _ hsinks, congrArg _ hcursors, fun x _ => by rw [State.sink, hsinks, State.sink],
      fun x _ => by rw [State.cursor, hcursors, State.cursor]⟩
  · obtain ⟨hcfg, hchan, -, -⟩ := hperf.keeps
    obtain ⟨hsinks, hcursors⟩ := hperf.length_eq
    exact ⟨hcfg, hchan, hsinks, hcursors, fun x => hperf.sink_eq, fun x => hperf.cursor_eq⟩

/-- Settles O40: a performed command leaves the block running, so one that writes no DOUT is left. -/
theorem onlyScalarResultsWriteDout : Obligations.OnlyScalarResultsWriteDout := by
  intro i s u hi h hcase
  obtain ⟨-, -, -, -, hdout⟩ | ⟨hrun, t, out, hperf, rfl⟩ := exec_keeps_or_performs hi h
  · exact hdout
  · obtain hd | hhalt := hcase
    · exact hperf.dout_eq hd
    · exact absurd (hhalt.symm.trans (hperf.halted_eq.trans hrun)) (by decide)

/-- Settles O41: only fault entry writes the fault registers, and it is a record update of nothing else. -/
theorem commandsAreAtomic : Obligations.CommandsAreAtomic := by
  intro i s u hi h
  obtain ⟨-, rfl⟩ | ⟨-, t, out, -, hperf, rfl⟩ | ⟨hrun, hfault⟩ := exec_cases hi h
  · exact .inl ⟨rfl, rfl⟩
  · obtain ⟨-, -, hstatus, hfcmd⟩ := hperf.keeps
    exact .inl ⟨hstatus, hfcmd⟩
  · exact .inr ⟨hrun, hfault⟩

/-- Settles O43: what is not performed appends nothing and overwrites nothing; the rest is the write of a push or of
SOVWR. -/
theorem sinksGrowMonotonically : Obligations.SinksGrowMonotonically := by
  intro i s u a q hw h hs
  have hi : i ≠ .srst := by rintro rfl; cases hw
  obtain ⟨-, -, hsinks, -, -⟩ | ⟨-, t, out, hperf, rfl⟩ := exec_keeps_or_performs hi h
  · have hsame : u.sink a = some ⟨.active, q⟩ := by rw [State.sink, hsinks, ← State.sink, hs]
    exact ⟨fun _ => ⟨[], by rw [hsame, List.append_nil]⟩, fun v _ => ⟨q, hsame, rfl, fun _ _ => rfl⟩⟩
  · refine ⟨fun happ => hperf.sink_append happ hw hs, ?_⟩
    rintro v rfl
    exact ⟨_, hperf.sink_overwrite hs, List.length_set, fun j hj => List.getElem?_set_ne hj.symm⟩

/-- Settles O44: what is not performed leaves the cursor, and so does a performed command but for a read of it. -/
theorem cursorsAdvanceMonotonically : Obligations.CursorsAdvanceMonotonically := by
  intro i s u x c hi hcnewb hsfinc hcsplt h hc hv hoff
  obtain ⟨-, -, -, hcursors, -⟩ | ⟨-, t, out, hperf, rfl⟩ := exec_keeps_or_performs hi h
  · exact ⟨c.off, by rw [State.cursor, hcursors, ← State.cursor, hc, ← hv], le_rfl, hoff⟩
  · exact hperf.cursor_advances hcnewb hsfinc hcsplt hc hv hoff

end Sys2Proof.Machine
end

section
/-! PROOFS. Which faults the body of a command can raise (spec/60_exceptions.md R241 to R245), check by check, and the
obligations about fault kinds and exhausted cursors. -/

namespace Sys2Proof.Machine

/-- The faults a command can raise once decode has accepted it (R241 to R245). -/
def faultsOf : Instr → List FaultKind
  | .nop | .srst | .snew _ => []
  | .cnewb _ _ => [.capacity]
  | .spad _ | .sfinc _ _ | .sfinb _ | .crem _ | .ctot _ | .cexh _ | .csplt _ _ | .cbytes _ => [.ctxState]
  | .spushb _ _ | .spushf _ _ | .spushy _ _ | .sapps _ _ | .sappc _ _ => [.ctxState, .capacity]
  | .sovwr _ _ | .crdb _ | .crdf _ _ | .crdy _ _ => [.ctxState, .bounds]
  | .spusht _ _ _ => [.ctxState, .width, .capacity]
  | .crdt _ _ _ => [.ctxState, .width, .bounds]

/-- A computation with checks raises only the faults of a list. In the lemmas below the list is that of a command, and
membership in it is looked up in `faultsOf`. -/
def RaisesOnly {α : Type} (L : List FaultKind) (x : Except FaultKind α) : Prop :=
  ∀ f, x = .error f → f ∈ L

section Checks
variable {α β : Type} {L : List FaultKind} {s : State} {a : CtxIdx} {f : FaultKind} {q bits : Bits} {c : Cursor}
  {w : WSel} {n : Nat}

theorem raisesOnly_ok (x : α) : RaisesOnly L (.ok x) := by
  intro f h
  cases h

theorem raisesOnly_bind {x : Except FaultKind α} {g : α → Except FaultKind β} (hx : RaisesOnly L x)
    (hg : ∀ z, RaisesOnly L (g z)) : RaisesOnly L (x >>= g) := by
  cases x with
  | ok z => exact hg z
  | error f =>
    rintro _ ⟨⟩
    exact hx f rfl

theorem raisesOnly_require {cond : Bool} (hf : f ∈ L := by simp [faultsOf]) : RaisesOnly L (require cond f) := by
  cases cond with
  | true => exact raisesOnly_ok ()
  | false =>
    rintro _ ⟨⟩
    exact hf

/-- The check of a sink the block has (R244). -/
theorem raisesOnly_activeSeq (hk : (s.sink a).isSome = true)
    (hf : FaultKind.ctxState ∈ L := by simp [faultsOf]) : RaisesOnly L (s.activeSeq a) := by
  obtain ⟨⟨st, q⟩, hs⟩ := Option.isSome_iff_exists.1 hk
  cases st with
  | active =>
    rw [activeSeq_active hs]
    exact raisesOnly_ok q
  | finalized =>
    rw [activeSeq_finalized hs]
    rintro _ ⟨⟩
    exact hf

/-- The check of a cursor the block has (R244). -/
theorem raisesOnly_validCursor (hk : (s.cursor a).isSome = true) (hf : FaultKind.ctxState ∈ L := by simp [faultsOf]) :
    RaisesOnly L (s.validCursor a) := by
  obtain ⟨c, hc⟩ := Option.isSome_iff_exists.1 hk
  cases hv : c.valid with
  | true =>
    rw [validCursor_valid hc hv]
    exact raisesOnly_ok c
  | false =>
    rw [validCursor_invalid hc hv]
    rintro _ ⟨⟩
    exact hf

theorem raisesOnly_append (hf : FaultKind.capacity ∈ L := by simp [faultsOf]) : RaisesOnly L (s.append a q bits) :=
  raisesOnly_bind (raisesOnly_require hf) fun _ => raisesOnly_ok _

/-- A field of all N bits passes the width check. -/
theorem raisesOnly_width (hf : n ≤ s.fieldWidth w ∨ FaultKind.width ∈ L) :
    RaisesOnly L (require (decide (n ≤ s.fieldWidth w)) .width) := by
  obtain hn | hf := hf
  · rw [decide_eq_true hn]
    exact raisesOnly_ok ()
  · exact raisesOnly_require hf

theorem raisesOnly_pushField (hk : (s.sink a).isSome = true) (hctx : FaultKind.ctxState ∈ L := by simp [faultsOf])
    (hwidth : n ≤ s.fieldWidth w ∨ FaultKind.width ∈ L := by simp [faultsOf])
    (hcap : FaultKind.capacity ∈ L := by simp [faultsOf]) : RaisesOnly L (s.pushField w a n) :=
  raisesOnly_bind (raisesOnly_activeSeq hk hctx) fun _ =>
    raisesOnly_bind (raisesOnly_width hwidth) fun _ => raisesOnly_append hcap

theorem raisesOnly_advance (hf : FaultKind.bounds ∈ L := by simp [faultsOf]) : RaisesOnly L (s.advance a c n) :=
  raisesOnly_bind (raisesOnly_require hf) fun _ => raisesOnly_ok _

theorem raisesOnly_readField (hk : (s.cursor a).isSome = true) (hctx : FaultKind.ctxState ∈ L := by simp [faultsOf])
    (hwidth : n ≤ s.fieldWidth w ∨ FaultKind.width ∈ L := by simp [faultsOf])
    (hbounds : FaultKind.bounds ∈ L := by simp [faultsOf]) : RaisesOnly L (s.readField w a n) :=
  raisesOnly_bind (raisesOnly_validCursor hk hctx) fun _ =>
    raisesOnly_bind (raisesOnly_width hwidth) fun _ =>
      raisesOnly_bind (raisesOnly_advance hbounds) fun _ => raisesOnly_ok _

theorem raisesOnly_query {value : Cursor → Nat} (hk : (s.cursor a).isSome = true)
    (hctx : FaultKind.ctxState ∈ L := by simp [faultsOf]) :
    RaisesOnly L (s.query a value) :=
  raisesOnly_bind (raisesOnly_validCursor hk hctx) fun _ => raisesOnly_ok _

end Checks

section
variable {s : State} {i : Instr} {a : CtxIdx} {f g : FaultKind}

/-- The block has every sink and every cursor that decode lets a command name (R22, R24, R84). -/
theorem isSome_sink (hinv : s.Inv) (ha : a.toNat < s.cfg.ns) : (s.sink a).isSome = true := by
  obtain ⟨hlen, -, -, -⟩ := memory_wf_iff.1 hinv.memory
  simpa [State.sink, hlen] using ha

theorem isSome_cursor (hinv : s.Inv) (ha : a.toNat < s.cfg.nc) : (s.cursor a).isSome = true := by
  obtain ⟨-, hlen, -, -⟩ := memory_wf_iff.1 hinv.memory
  simpa [State.cursor, hlen] using ha

theorem indexOk_of_accepts (h : s.accepts i = true) : i.indexOk s.cfg = true := by
  have hlegal := (accepts_iff.1 h).2
  simp only [Instr.legal, Instr.wf, Bool.and_eq_true] at hlegal
  obtain ⟨⟨hidx, -⟩, -⟩ := hlegal
  exact hidx

/-- The checks of each body, in the order it makes them. -/
theorem raisesOnly_body (hinv : s.Inv) (hidx : i.indexOk s.cfg = true) : RaisesOnly (faultsOf i) (commandBody s i) := by
  have hsink : ∀ {a : CtxIdx}, decide (a.toNat < s.cfg.ns) = true → (s.sink a).isSome = true :=
    fun ha => isSome_sink hinv (of_decide_eq_true ha)
  have hcursor : ∀ {a : CtxIdx}, decide (a.toNat < s.cfg.nc) = true → (s.cursor a).isSome = true :=
    fun ha => isSome_cursor hinv (of_decide_eq_true ha)
  cases i with
  | nop | srst | snew => exact raisesOnly_ok _
  | spushb a v =>
    exact raisesOnly_bind (raisesOnly_activeSeq (hsink hidx)) fun _ => raisesOnly_append
  | sovwr a v =>
    exact raisesOnly_bind (raisesOnly_activeSeq (hsink hidx)) fun _ =>
      raisesOnly_bind raisesOnly_require fun _ => raisesOnly_ok _
  | spushf w a => exact raisesOnly_pushField (hsink hidx)
  | spusht w a n => exact raisesOnly_pushField (hsink hidx)
  | spushy a count =>
    exact raisesOnly_bind (raisesOnly_activeSeq (hsink hidx)) fun _ => raisesOnly_append
  | spad a => exact raisesOnly_bind (raisesOnly_activeSeq (hsink hidx)) fun _ => raisesOnly_ok _
  | sapps a b =>
    obtain ⟨ha, hb⟩ := Bool.and_eq_true_iff.1 hidx
    exact raisesOnly_bind (raisesOnly_activeSeq (hsink ha)) fun _ =>
      raisesOnly_bind (raisesOnly_activeSeq (hsink hb)) fun _ => raisesOnly_append
  | sappc a b =>
    obtain ⟨ha, hb⟩ := Bool.and_eq_true_iff.1 hidx
    exact raisesOnly_bind (raisesOnly_activeSeq (hsink ha)) fun _ =>
      raisesOnly_bind (raisesOnly_validCursor (hcursor hb)) fun _ => raisesOnly_append
  | sfinc a b =>
    obtain ⟨ha, -⟩ := Bool.and_eq_true_iff.1 hidx
    exact raisesOnly_bind (raisesOnly_activeSeq (hsink ha)) fun _ => raisesOnly_ok _
  | sfinb a => exact raisesOnly_bind (raisesOnly_activeSeq (hsink hidx)) fun _ => raisesOnly_ok _
  | cnewb a count => exact raisesOnly_bind raisesOnly_require fun _ => raisesOnly_ok _
  | crdb a =>
    exact raisesOnly_bind (raisesOnly_validCursor (hcursor hidx)) fun _ =>
      raisesOnly_bind raisesOnly_advance fun _ => raisesOnly_ok _
  | crdf w a => exact raisesOnly_readField (hcursor hidx)
  | crdt w a n => exact raisesOnly_readField (hcursor hidx)
  | crdy a count =>
    exact raisesOnly_bind (raisesOnly_validCursor (hcursor hidx)) fun _ =>
      raisesOnly_bind raisesOnly_advance fun _ => raisesOnly_ok _
  | crem | ctot | cexh => exact raisesOnly_query (hcursor hidx)
  | csplt a b =>
    obtain ⟨ha, -⟩ := Bool.and_eq_true_iff.1 hidx
    exact raisesOnly_bind (raisesOnly_validCursor (hcursor ha)) fun _ => raisesOnly_ok _
  | cbytes a => exact raisesOnly_bind (raisesOnly_validCursor (hcursor hidx)) fun _ => raisesOnly_ok _

/-- Fault entries of different kinds differ in STATUS. -/
theorem faultEntry_inj (h : s.faultEntry f = s.faultEntry g) : f = g := by
  have hstatus : f.statusWord = g.statusWord := congrArg State.status h
  revert hstatus
  cases f <;> cases g <;> decide

/-- A fault that an accepted command raises is one its body raises. -/
theorem mem_faultsOf_of_exec (hinv : s.Inv) (hacc : s.accepts i = true) (h : exec i s = .next (s.faultEntry f)) :
    f ∈ faultsOf i := by
  obtain ⟨hrun, hlegal⟩ := accepts_iff.1 hacc
  have hi : i ≠ .srst := by
    rintro rfl
    rw [exec_srst_of_payload_nil (srst_legal_iff.1 hlegal)] at h
    injection h with h
    have hhalt : (s.blockReset.respond []).halted = true := h ▸ halted_faultEntry
    exact absurd ((halted_resetFor (cfg := s.cfg)).symm.trans hhalt) (by decide)
  rw [exec_eq_perform_body hi] at h
  cases hbody : commandBody s i with
  | error g =>
    rw [perform_error hacc hbody] at h
    injection h with h
    rw [← faultEntry_inj h]
    exact raisesOnly_body hinv (indexOk_of_accepts hacc) g hbody
  | ok p =>
    obtain ⟨t, out⟩ := p
    have hstill : t.halted = false := (performed_of_body_eq_ok hi hbody).halted_eq.trans hrun
    rw [perform_ok hacc hbody] at h
    injection h with h
    have hhalt : (t.respond out).halted = true := h ▸ halted_faultEntry
    exact absurd (hstill.symm.trans hhalt) (by decide)

/-! ### The commands that can raise each fault -/

theorem bounds_mem_faultsOf (h : FaultKind.bounds ∈ faultsOf i) :
    (∃ a v, i = .sovwr a v) ∨ (∃ a, i = .crdb a) ∨ (∃ w a, i = .crdf w a) ∨ (∃ w a n, i = .crdt w a n) ∨
      ∃ a n, i = .crdy a n := by
  cases i with
  | sovwr | crdb | crdf | crdt | crdy => simp
  | _ => exact absurd h (by simp [faultsOf])

theorem width_mem_faultsOf (h : FaultKind.width ∈ faultsOf i) :
    (∃ w a n, i = .spusht w a n) ∨ ∃ w a n, i = .crdt w a n := by
  cases i with
  | spusht | crdt => simp
  | _ => exact absurd h (by simp [faultsOf])

theorem illegalCmd_not_mem_faultsOf : FaultKind.illegalCmd ∉ faultsOf i := by
  cases i <;> simp [faultsOf]

theorem ctxState_mem_faultsOf (h : FaultKind.ctxState ∈ faultsOf i) :
    i ≠ .nop ∧ i ≠ .srst ∧ (∀ a, i ≠ .snew a) ∧ ∀ a n, i ≠ .cnewb a n := by
  cases i with
  | nop | srst | snew | cnewb => exact absurd h (by simp [faultsOf])
  | _ => simp

theorem capacity_mem_faultsOf (h : FaultKind.capacity ∈ faultsOf i) :
    (i.appends = true ∧ ∀ a, i ≠ .spad a) ∨ ∃ a n, i = .cnewb a n := by
  cases i with
  | spushb | spushf | spusht | spushy | sapps | sappc | cnewb => simp [Instr.appends]
  | _ => exact absurd h (by simp [faultsOf])

end

/-- Settles O42: an accepted command raises only the faults of its checks, and the table of those by kind. -/
theorem faultKindsByCommand : Obligations.FaultKindsByCommand := by
  intro i s k hinv hacc h
  have hmem := mem_faultsOf_of_exec hinv hacc h
  cases k with
  | bounds => exact bounds_mem_faultsOf hmem
  | width => exact width_mem_faultsOf hmem
  | illegalCmd => exact illegalCmd_not_mem_faultsOf hmem
  | ctxState => exact ctxState_mem_faultsOf hmem
  | capacity => exact capacity_mem_faultsOf hmem

end Sys2Proof.Machine
end

section
/-! PROOFS. Every interaction gets its answer in one step (spec/30_encoding.md R92; spec/60_exceptions.md R257, R258;
spec/70_reset_and_hazards.md R279): `exec` is total, what each response carries, and the obligations about steps. -/

namespace Sys2Proof.Machine

section
variable {s t u : State} {i : Instr} {cmd : Command} {e : HostEvent} {rest : List HostEvent} {out : List Byte}

theorem perform_total (s : State) (i : Instr) (body : Effect) : ∃ u, s.perform i body = .next u := by
  unfold State.perform
  split_ifs with hhalt hlegal
  · exact ⟨_, rfl⟩
  · cases body <;> exact ⟨_, rfl⟩
  · exact ⟨_, rfl⟩

theorem exec_total (i : Instr) (s : State) : ∃ u, exec i s = .next u := by
  by_cases hi : i = .srst
  · subst hi
    by_cases hp : s.payload = []
    · exact ⟨_, exec_srst_of_payload_nil hp⟩
    · exact ⟨_, exec_srst_of_payload_ne_nil hp⟩
  · rw [exec_eq_perform_body hi]
    exact perform_total s i _

/-- No command changes the parameters or the channel, SRST included. -/
theorem exec_keeps_cfg_chan (h : exec i s = .next u) : u.cfg = s.cfg ∧ u.chan = s.chan := by
  by_cases hi : i = .srst
  · subst hi
    obtain rfl | ⟨-, rfl⟩ | ⟨-, rfl⟩ := exec_srst_cases h <;> exact ⟨rfl, rfl⟩
  · obtain ⟨hcfg, hchan, -⟩ := contextsAreIndependent i s u hi h
    exact ⟨hcfg, hchan⟩

/-- A command that decodes is executed; on a halted block too, where each meaning but SRST's checks the halt itself. -/
theorem answerCommand_of_decode (hd : cmd.decode s.cfg = .ok i) : answerCommand cmd s = exec i s := by
  unfold answerCommand
  split_ifs with hhalt
  · simp only [Bool.and_eq_true, Bool.not_eq_true'] at hhalt
    obtain ⟨hhalt, hsrst⟩ := hhalt
    have hi : i ≠ .srst := by
      rintro rfl
      obtain ⟨hword, -, hlen⟩ := acceptedWordsAreEncodings _ _ _ _ hd
      have hacc : isAcceptedSrst cmd = true :=
        isAcceptedSrst_iff.2 ⟨hword.symm.trans encode_srst, List.eq_nil_of_length_eq_zero hlen⟩
      exact absurd (hacc.symm.trans hsrst) (by decide)
    rw [exec_eq_perform_body hi, perform_halted hhalt]
  · rw [hd]

theorem answerCommand_total (cmd : Command) (s : State) : ∃ u, answerCommand cmd s = .next u := by
  cases hd : cmd.decode s.cfg with
  | ok i =>
    rw [answerCommand_of_decode hd]
    exact exec_total i s
  | error err =>
    unfold answerCommand
    rw [hd]
    split_ifs <;> exact ⟨_, rfl⟩

/-! ### The response (R92) -/

theorem outLength_of_appends (h : i.appends = true) : s.outLength i = 0 := by
  cases i with
  | spushb | spushf | spusht | spushy | spad | sapps | sappc => rfl
  | _ => cases h

theorem outLength_of_writesDout (h : i.writesDout = true) : s.outLength i = 0 := by
  cases i with
  | crdb | crdf | crdt | crem | ctot | cexh => rfl
  | _ => cases h

theorem Performed.length_out (h : Performed s i t out) : out.length = s.outLength i := by
  cases h with
  | push happ => exact (outLength_of_appends happ).symm
  | scalarRead v hdout | query v hdout => exact (outLength_of_writesDout hdout).symm
  | sfinb hs => simp [State.outLength, hs, byteCount]
  | cbytes hc => simp [State.outLength, hc, byteCount]
  | crdy => exact length_readRun _ _ _
  | _ => rfl

/-- The response to `cmd` on `s` that state `u` gives: STATUS and DOUT after the command, and the output of R92. -/
def Responds (s : State) (cmd : Command) (u : State) : Prop :=
  ∃ out : List Byte, u.reply = some (.response ⟨u.status, u.dout, out⟩) ∧ (u.halted = true → out = []) ∧
    (u.halted = false → ∃ i, cmd.decode s.cfg = .ok i ∧ out.length = s.outLength i)

theorem responds_notPerformed (hhalt : s.halted = true) : Responds s cmd s.notPerformed :=
  ⟨[], rfl, fun _ => rfl, fun hrun => absurd (hhalt.symm.trans hrun) (by decide)⟩

theorem responds_faultEntry (f : FaultKind) : Responds s cmd (s.faultEntry f) :=
  ⟨[], rfl, fun _ => rfl, fun hrun => absurd (halted_faultEntry.symm.trans hrun) (by decide)⟩

theorem exec_responds (hd : cmd.decode s.cfg = .ok i) (h : exec i s = .next u) : Responds s cmd u := by
  by_cases hi : i = .srst
  · subst hi
    obtain rfl | ⟨hhalt, rfl⟩ | ⟨-, rfl⟩ := exec_srst_cases h
    · exact ⟨[], rfl, fun _ => rfl, fun _ => ⟨.srst, hd, rfl⟩⟩
    · exact responds_notPerformed hhalt
    · exact responds_faultEntry _
  · obtain ⟨hhalt, rfl⟩ | ⟨hacc, t, out, -, hperf, rfl⟩ | ⟨-, f, rfl⟩ := exec_cases hi h
    · exact responds_notPerformed hhalt
    · have hrun : t.halted = false := hperf.halted_eq.trans (accepts_iff.1 hacc).1
      exact ⟨out, rfl, fun hhalt => absurd (hrun.symm.trans hhalt) (by decide),
        fun _ => ⟨i, hd, hperf.length_out⟩⟩
    · exact responds_faultEntry f

theorem answerCommand_responds (h : answerCommand cmd s = .next u) :
    u.cfg = s.cfg ∧ u.chan = s.chan ∧ Responds s cmd u := by
  obtain ⟨hhalt, rfl⟩ | ⟨-, rfl⟩ | ⟨i, hd, hexec⟩ := answerCommand_cases h
  · exact ⟨rfl, rfl, responds_notPerformed hhalt⟩
  · exact ⟨rfl, rfl, responds_faultEntry _⟩
  · obtain ⟨hcfg, hchan⟩ := exec_keeps_cfg_chan hexec
    exact ⟨hcfg, hchan, exec_responds hd hexec⟩

/-! ### The reset input and the register port -/

/-- The byte fields of CFG as a number (R30). -/
theorem toNat_cfgReg (hwf : s.cfg.wf = true) :
    s.cfgReg.toNat = s.cfg.ns + s.cfg.nc * 2 ^ 8 + s.cfg.wordW.bits * 2 ^ 16 + 1 * 2 ^ 24 := by
  obtain ⟨-, hns, -, hnc, -, -, -⟩ := of_decide_eq_true hwf
  have hword : s.cfg.wordW.bits ≤ 64 := by cases s.cfg.wordW <;> decide
  simp only [State.cfgReg, BitVec.toNat_append, BitVec.toNat_ofNat]
  rw [← Nat.shiftLeft_add_eq_or_of_lt (by omega), ← Nat.shiftLeft_add_eq_or_of_lt (by omega),
    ← Nat.shiftLeft_add_eq_or_of_lt (by omega)]
  simp only [Nat.shiftLeft_eq]
  omega

theorem toNat_capReg (hwf : s.cfg.wf = true) : s.capReg.toNat = s.cfg.capBits := by
  obtain ⟨-, -, -, -, -, -, hcap⟩ := of_decide_eq_true hwf
  rw [State.capReg, BitVec.toNat_ofNat]
  omega

/-- The two halves of DOUT (R32). -/
theorem toNat_readPort_dout_low : (s.readPort 0x08).toNat = s.dout.toNat % 2 ^ 32 := by
  simp [State.readPort]

theorem toNat_readPort_dout_high :
    (s.readPort 0x0C).toNat = if s.cfg.wordW = .w32 then 0 else s.dout.toNat / 2 ^ 32 := by
  have hlt := s.dout.isLt
  cases hw : s.cfg.wordW with
  | w32 => simp [State.readPort, hw]
  | w64 =>
    simp only [State.readPort, hw, BitVec.extractLsb'_toNat, Nat.shiftRight_eq_div_pow, reduceCtorEq, if_false]
    omega

/-- Every other address reads 0 (log 8). -/
theorem readPort_unmapped {addr : Nat} (h : addr ∉ [0x00, 0x04, 0x08, 0x0C, 0x10, 0x14]) : s.readPort addr = 0 := by
  unfold State.readPort
  split
  case h_7 => rfl
  all_goals exact absurd h (by decide)

end

/-- Settles O31: by the kind of interaction; a command's response is that of `exec`, or of the halt, or of a fault. -/
theorem everyCommandIsAnswered : Obligations.EveryCommandIsAnswered := by
  intro s
  cases hchan : s.chan with
  | nil => exact ⟨s, step_idle hchan, rfl, hchan, fun hne => absurd rfl hne, fun c hhead => by cases hhead⟩
  | cons e rest =>
    cases e with
    | command c =>
      obtain ⟨u, hans⟩ := answerCommand_total c s
      obtain ⟨hcfg, hu, out, hreply, hresp⟩ := answerCommand_responds hans
      refine ⟨u.closeHead, ?_, hcfg, ?_, fun _ => ?_, ?_⟩
      · rw [step_command hchan, hans]
        rfl
      · rw [closeHead_chan, hu, hchan]
      · rw [closeHead_reply, hreply]
        exact Option.some_ne_none _
      · rintro c' ⟨⟩
        exact ⟨out, hreply, hresp⟩
    | readReg addr =>
      exact ⟨_, step_readReg hchan, rfl, congrArg List.tail hchan, fun _ => Option.some_ne_none _,
        fun c hhead => by cases hhead⟩
    | resetInput =>
      exact ⟨_, step_resetInput hchan, rfl, congrArg List.tail hchan, fun _ => Option.some_ne_none _,
        fun c hhead => by cases hhead⟩

/-- Settles O30: a command that decodes is executed, one that does not is a fault entry on a running block. -/
theorem stepRunsTheDecodedCommand : Obligations.StepRunsTheDecodedCommand := by
  refine ⟨fun s c rest i hchan hd => ?_, fun s c rest e hchan hrun hd => ⟨?_, cmdWord_of_chan hchan⟩,
    fun s hchan => step_idle hchan⟩
  · obtain ⟨u, hexec⟩ := exec_total i s
    have hu : u.chan = .command c :: rest := (exec_keeps_cfg_chan hexec).2.trans hchan
    refine ⟨u, hexec, ?_⟩
    rw [step_command hchan, answerCommand_of_decode hd, hexec, ← closeHead_of_chan hu]
    rfl
  · rw [step_command hchan, answerCommand_refused hrun hd,
      ← closeHead_of_chan (s := s.faultEntry .illegalCmd) hchan]
    rfl

/-- Settles O28: the reset values of `blockReset`, and fault_o follows from STATUS. -/
theorem resetInputResetsTheBlock : Obligations.ResetInputResetsTheBlock := by
  intro s rest hchan
  exact ⟨_, step_resetInput hchan, rfl, congrArg List.tail hchan, rfl, rfl, rfl, rfl, rfl, rfl,
    faultO_resetFor (cfg := s.cfg)⟩

/-- Settles O27: each address by its row of the port. -/
theorem registerReadPort : Obligations.RegisterReadPort := by
  intro s addr rest hchan
  refine ⟨?_, rfl, rfl, toNat_readPort_dout_low, toNat_readPort_dout_high, toNat_cfgReg, toNat_capReg,
    readPort_unmapped⟩
  rw [step_readReg hchan, closeHead_of_chan (s := s.answerRead addr) hchan]
  rfl

/-- Settles O9: the pad count is below 8 and aligns the length; the body has only the check of sink a. -/
theorem spadPadsToAByte : Obligations.SpadPadsToAByte := by
  intro a
  refine ⟨by simp [toNat_encode, Instr.fields], fun s q hacc => ⟨fun hs => ?_, fun hs => ?_⟩⟩
  · exact perform_error hacc (activeSeq_bind_finalized hs)
  · refine ⟨padCount q.length, padCount_lt _, padCount_aligns _, fun hmod => ?_, fun hinv => ?_,
      perform_setSeq hacc (activeSeq_bind_active hs)⟩
    · rw [padCount, hmod]
    · simpa using length_pad_le hinv hs

end Sys2Proof.Machine
end

section
/-! PROOFS. Byte images and the shift datapath (spec/20_memory.md R51 to R56, R70, R71): a window of image bytes is a
slice of the sequence, and the whole image is the number the sequence stands for. -/

namespace Sys2Proof.Machine

section
variable {s : Bits} {a n k i : Nat}

/-! ### Bits of a slice and of an image byte -/

theorem getElem?_slice (hi : i < n) : (slice s a n)[i]? = s[a + i]? := by
  rw [slice, List.getElem?_take_of_lt hi, List.getElem?_drop]

/-- Bit i of the number of a slice, and 0 above its width. -/
theorem testBit_fromBits_slice : (fromBits (slice s a n)).testBit i = (decide (i < n) && s[a + i]?.getD false) := by
  rw [testBit_fromBits]
  by_cases hi : i < n
  · rw [getElem?_slice hi, decide_eq_true hi, Bool.true_and]
  · have hlen : (slice s a n).length ≤ i := by
      rw [length_slice]
      omega
    rw [List.getElem?_eq_none hlen, decide_eq_false hi, Bool.false_and, Option.getD_none]

/-- An image byte holds its eight bits whole. -/
theorem toNat_imageByte : (imageByte s k).toNat = fromBits (slice s (8 * k) 8) := by
  rw [imageByte, BitVec.toNat_ofNat]
  exact Nat.mod_eq_of_lt (fromBits_slice_lt s (8 * k) 8)

theorem getLsbD_imageByte (hi : i < 8) : (imageByte s k).getLsbD i = s[8 * k + i]?.getD false := by
  rw [← BitVec.testBit_toNat, toNat_imageByte, testBit_fromBits_slice, decide_eq_true hi, Bool.true_and]

theorem getElem?_seqToBytes (hk : k < byteCount s.length) : (seqToBytes s)[k]? = some (imageByte s k) := by
  rw [seqToBytes, List.getElem?_map, List.getElem?_range hk, Option.map_some]

/-- Beyond its end an image reads as 0, which is what the byte there would hold (R55). -/
theorem getD_seqToBytes : (seqToBytes s).getD k 0 = imageByte s k := by
  rw [List.getD_eq_getElem?_getD]
  by_cases hk : k < byteCount s.length
  · rw [getElem?_seqToBytes hk, Option.getD_some]
  · have hempty : slice s (8 * k) 8 = [] := by
      apply List.eq_nil_of_length_eq_zero
      rw [length_slice]
      simp only [byteCount] at hk
      omega
    rw [List.getElem?_eq_none (by simpa using hk), Option.getD_none, imageByte, hempty]
    rfl

/-! ### Windows of image bytes -/

/-- The number of a slice in two parts; a part beyond the end of the sequence is 0. -/
theorem fromBits_slice_add {m : Nat} :
    fromBits (slice s a (n + m)) = fromBits (slice s a n) + fromBits (slice s (a + n) m) * 2 ^ n := by
  rw [slice_add, fromBits_append]
  by_cases hlen : a + n ≤ s.length
  · rw [length_slice, Nat.min_eq_left (by omega), Nat.mul_comm]
  · have hempty : slice s (a + n) m = [] := by
      apply List.eq_nil_of_length_eq_zero
      rw [length_slice]
      omega
    simp [hempty, fromBits]

/-- m image bytes from byte k on, as one number, are the slice of their 8m bits. -/
theorem sum_imageByte (s : Bits) (k m : Nat) :
    ((List.range m).map fun j => (imageByte s (k + j)).toNat * 2 ^ (8 * j)).sum =
      fromBits (slice s (8 * k) (8 * m)) := by
  induction m with
  | zero => simp [slice, fromBits]
  | succ m ih =>
    rw [List.range_succ, List.map_append, List.sum_append, ih, List.map_singleton, List.sum_singleton,
      toNat_imageByte, Nat.mul_succ, fromBits_slice_add, Nat.mul_add]

/-- The bytes of an image with their indexes. -/
theorem zipIdx_seqToBytes (s : Bits) :
    (seqToBytes s).zipIdx = (List.range (byteCount s.length)).map fun k => (imageByte s k, k) := by
  apply List.ext_getElem
  · simp
  · intro k h1 h2
    simp [seqToBytes]

/-- The number whose base-256 digits are the image is the number the sequence stands for. -/
theorem sum_zipIdx_seqToBytes (s : Bits) :
    ((seqToBytes s).zipIdx.map fun x => x.1.toNat * 2 ^ (8 * x.2)).sum = fromBits s := by
  have hwhole : slice s (8 * 0) (8 * byteCount s.length) = s := by
    rw [slice, Nat.mul_zero, List.drop_zero]
    apply List.take_of_length_le
    simp only [byteCount]
    omega
  have hsum := sum_imageByte s 0 (byteCount s.length)
  rw [hwhole] at hsum
  rw [zipIdx_seqToBytes, List.map_map, ← hsum]
  simp [Function.comp_def]

/-- A window that holds the n bits from offset `off` on, shifted to their start and cut to n bits. -/
theorem fromBits_slice_of_window {off m : Nat} (hm : off % 8 + n ≤ 8 * m) :
    fromBits (slice s off n) = (fromBits (slice s (8 * (off / 8)) (8 * m)) >>> (off % 8)) % 2 ^ n := by
  apply Nat.eq_of_testBit_eq
  intro i
  rw [Nat.testBit_mod_two_pow, Nat.testBit_shiftRight, testBit_fromBits_slice, testBit_fromBits_slice]
  by_cases hi : i < n
  · rw [decide_eq_true (show off % 8 + i < 8 * m by omega), Bool.true_and,
      show 8 * (off / 8) + (off % 8 + i) = off + i by omega]
  · rw [decide_eq_false hi, Bool.false_and, Bool.false_and]

theorem byteCount_bytesToSeq (B : List Byte) : byteCount (bytesToSeq B).length = B.length := by
  rw [length_bytesToSeq, byteCount]
  omega

/-- The image of the bits of bytes is the bytes (R56). -/
theorem seqToBytes_bytesToSeq (B : List Byte) : seqToBytes (bytesToSeq B) = B := by
  have hcount := byteCount_bytesToSeq B
  apply List.ext_getElem?
  intro k
  by_cases hk : k < B.length
  · rw [getElem?_seqToBytes (hcount ▸ hk), List.getElem?_eq_getElem hk]
    congr 1
    apply BitVec.eq_of_getLsbD_eq
    intro i hi
    rw [getLsbD_imageByte hi, getElem?_bytesToSeq B k hi, List.getElem?_eq_getElem hk]
    rfl
  · rw [List.getElem?_eq_none (by rw [length_seqToBytes, hcount]; omega), List.getElem?_eq_none (by omega)]

end

/-- Settles O51: byte k is `imageByte`, whose bits are the sequence's. -/
theorem byteImageIsLsbFirst : Obligations.ByteImageIsLsbFirst := by
  refine fun s => ⟨length_seqToBytes s, fun k i hk hi => ?_⟩
  rw [getElem?_seqToBytes hk, Option.map_some, getLsbD_imageByte hi]

/-- Settles O53: the image bytes of the window make up the slice of its bits, in which the field is shifted by
`off % 8`; a byte of a run is a field of 8 bits in a window of two bytes. -/
theorem fieldReadByShift : Obligations.FieldReadByShift := by
  refine ⟨fun s off n _ => ?_, fun s off count j _ hj => ?_⟩
  · simp only [getD_seqToBytes, sum_imageByte]
    exact fromBits_slice_of_window (by omega)
  · have hwindow : fromBits (slice s (8 * (off / 8 + j)) (8 * 2)) =
        (imageByte s (off / 8 + j)).toNat + 256 * (imageByte s (off / 8 + j + 1)).toNat := by
      rw [← sum_imageByte]
      simp [List.range_succ, Nat.mul_comm]
    rw [getElem?_readRun hj, getD_seqToBytes, getD_seqToBytes, fromBits_slice_of_window (m := 2) (by omega),
      show (off + 8 * j) / 8 = off / 8 + j by omega, show (off + 8 * j) % 8 = off % 8 by omega, hwindow]
    rfl

/-- Settles O54: the image number is `fromBits`, which an append adds up. -/
theorem fieldAppendByShift : Obligations.FieldAppendByShift := by
  intro s v n
  rw [sum_zipIdx_seqToBytes, sum_zipIdx_seqToBytes, fromBits_append, fromBits_bitsOf, Nat.mul_comm (2 ^ s.length)]

end Sys2Proof.Machine
end

section
/-! PROOFS. Field commands bit by bit (spec/20_memory.md R52; spec/40_sink.md R124), reads of an exhausted cursor
(spec/41_cursor.md R183), and what a command's answer depends on of DIN (spec/30_encoding.md R85). -/

namespace Sys2Proof.Machine

section
variable {s t : State} {i : Instr} {w : WSel} {a : CtxIdx} {c : Cursor} {n j : Nat} {x y : Effect}

/-- Bit j of the value a field push takes is bit j of the message's data operand. -/
theorem testBit_dinField (hj : j < s.fieldWidth w) : (s.dinField w).testBit j = s.current.din.getLsbD j := by
  rw [dinField_eq, Nat.testBit_mod_two_pow, decide_eq_true hj, Bool.true_and, BitVec.testBit_toNat]

/-- Bit j of DOUT after a read of n ≤ N bits. -/
theorem getLsbD_setDout_slice {q : Bits} {off : Nat} (hn : n ≤ s.fieldWidth w) :
    (s.setDout (fromBits (slice q off n))).dout.getLsbD j = (decide (j < n) && q[off + j]?.getD false) := by
  rw [← BitVec.testBit_toNat, setDout_toNat (fromBits_slice_lt _ _ _) hn, testBit_fromBits_slice]

/-- The number of bits a field has fits IMM (R83). -/
theorem toNat_ofNat_fieldWidth : (BitVec.ofNat 16 (s.fieldWidth w)).toNat = s.fieldWidth w := by
  have := fieldWidth_le_64 (s := s) (w := w)
  rw [BitVec.toNat_ofNat]
  omega

theorem one_le_fieldWidth : 1 ≤ s.fieldWidth w := by
  cases w <;> cases h : s.cfg.wordW <;> simp [State.fieldWidth, WordWidth.bits, h]

/-- A command without payload is accepted by a running block when it is well formed. -/
theorem accepts_of_payload_nil (hrun : s.halted = false) (hp : s.payload = []) (hidx : i.indexOk s.cfg = true)
    (halias : i.noAlias = true) (hneed : i.payloadNeed = 0) : s.accepts i = true := by
  simp [accepts_iff, Instr.legal, Instr.wf, hrun, hp, hidx, halias, hneed]

/-! ### The answer but for the channel -/

/-- An effect without the interaction in progress: what of it is left after the command. -/
def closed (x : Effect) : Effect :=
  x.map fun p => (p.1.closeHead, p.2)

theorem closed_bind {α : Type} (e : Except FaultKind α) (g : α → Effect) :
    closed (e >>= g) = e >>= fun z => closed (g z) := by
  cases e <;> rfl

theorem closeHead_respond (out : List Byte) : (s.respond out).closeHead = s.closeHead.respond out := rfl

variable {word : Word32} {d d' : DataWord} {bytes : List Byte}

/-- Commands that differ in DIN only, with bodies of the same effect, leave the same state: the halt and the legality
do not look at DIN, and neither does a fault entry. -/
theorem closing_perform_of_closed_eq (h : closed x = closed y) :
    closing ((s.offering (.command ⟨word, d', bytes⟩)).perform i x) =
      closing ((s.offering (.command ⟨word, d, bytes⟩)).perform i y) := by
  have hhalt : (s.offering (.command ⟨word, d', bytes⟩)).halted =
      (s.offering (.command ⟨word, d, bytes⟩)).halted := rfl
  have hlegal : i.legal (s.offering (.command ⟨word, d', bytes⟩)).cfg
      (s.offering (.command ⟨word, d', bytes⟩)).payload.length =
      i.legal (s.offering (.command ⟨word, d, bytes⟩)).cfg
        (s.offering (.command ⟨word, d, bytes⟩)).payload.length := rfl
  unfold State.perform
  rw [hhalt, hlegal]
  split_ifs
  · rfl
  · cases x with
    | error f =>
      cases y with
      | error g => cases h; rfl
      | ok p => cases h
    | ok p =>
      cases y with
      | error g => cases h
      | ok p' =>
        injection h with h
        obtain ⟨hclose, hout⟩ := Prod.mk.inj h
        exact congrArg Host.Outcome.next (by rw [closeHead_respond, hclose, hout, ← closeHead_respond])
  · rfl

theorem closing_exec_srst :
    closing (exec .srst (s.offering (.command ⟨word, d', bytes⟩))) =
      closing (exec .srst (s.offering (.command ⟨word, d, bytes⟩))) := by
  by_cases hp : bytes = []
  · have hnil : ∀ din, exec .srst (s.offering (.command ⟨word, din, bytes⟩)) =
        .next ((s.offering (.command ⟨word, din, bytes⟩)).blockReset.respond []) :=
      fun din => exec_srst_of_payload_nil hp
    rw [hnil, hnil]
    rfl
  · have hcons : ∀ din, exec .srst (s.offering (.command ⟨word, din, bytes⟩)) =
        .next ((s.offering (.command ⟨word, din, bytes⟩)).raise .illegalCmd) :=
      fun din => exec_srst_of_payload_ne_nil hp
    rw [hcons, hcons]
    show closing (.next (if s.halted then _ else _)) = closing (.next (if s.halted then _ else _))
    split_ifs <;> rfl

section
variable (hsovwr : ∀ a v, i ≠ .sovwr a v)
  (hfield : ∀ w a, (i = .spushf w a ∨ ∃ n, i = .spusht w a n) →
    (s.offering (.command ⟨word, d', bytes⟩)).dinField w = (s.offering (.command ⟨word, d, bytes⟩)).dinField w)
include hsovwr hfield

/-- A command that does not use DIN, or whose field of DIN is the same, has the same effect (R85). -/
theorem closed_commandBody_of_din :
    closed (commandBody (s.offering (.command ⟨word, d', bytes⟩)) i) =
      closed (commandBody (s.offering (.command ⟨word, d, bytes⟩)) i) := by
  cases i with
  | sovwr a v => exact absurd rfl (hsovwr a v)
  | spushf w a =>
    simp only [commandBody, State.pushField, State.append, closed_bind, hfield w a (.inl rfl)]
    rfl
  | spusht w a n =>
    simp only [commandBody, State.pushField, State.append, closed_bind, hfield w a (.inr ⟨n, rfl⟩)]
    rfl
  | _ =>
    simp only [commandBody, State.append, State.advance, State.readField, State.query, bind_assoc, closed_bind]
    rfl

theorem issue_eq_of_din (hd : decode s.cfg word bytes.length = .ok i) :
    issue ⟨word, d', bytes⟩ s = issue ⟨word, d, bytes⟩ s := by
  have hans : ∀ din, issue ⟨word, din, bytes⟩ s =
      closing (exec i (s.offering (.command ⟨word, din, bytes⟩))) :=
    fun din => (step_command rfl).trans
      (congrArg closing (answerCommand_of_decode (cmd := ⟨word, din, bytes⟩) (s := s.offering _) hd))
  rw [hans, hans]
  by_cases hi : i = .srst
  · subst hi
    exact closing_exec_srst
  · rw [exec_eq_perform_body hi, exec_eq_perform_body hi]
    exact closing_perform_of_closed_eq (closed_commandBody_of_din hsovwr hfield)

end

end

/-- Settles O46: SPUSHF and SPUSHT read DIN through `dinField` only, and but for SOVWR no other body reads it. -/
theorem unusedDinIsIgnored : Obligations.UnusedDinIsIgnored := by
  rintro s ⟨word, d, bytes⟩ d' i hd
  refine ⟨fun hsovwr hspushf hspusht => issue_eq_of_din hsovwr ?_ hd, fun w a hi hagree =>
    issue_eq_of_din ?_ ?_ hd⟩
  · rintro w a (hi | ⟨n, hi⟩)
    · exact absurd hi (hspushf w a)
    · exact absurd hi (hspusht w a n)
  · rintro a v rfl
    obtain hi | ⟨n, hi⟩ := hi <;> cases hi
  · rintro w' a' hi'
    have hw : w' = w := by
      obtain rfl | ⟨n, rfl⟩ := hi <;> obtain hi' | ⟨n', hi'⟩ := hi' <;> cases hi' <;> rfl
    rw [dinField_eq, dinField_eq, hw]
    exact hagree.symm

/-- Settles O48: N fits IMM, so the two have one body. -/
theorem fixedIsTruncatedAtFullWidth : Obligations.FixedIsTruncatedAtFullWidth := by
  intro s w a
  exact perform_congr rfl (by rw [toNat_ofNat_fieldWidth])

/-- Settles O50: a push appends `bitsOf` the field of DIN; DOUT is the number of the slice read, which fits it. -/
theorem fieldsAreLittleEndian : Obligations.FieldsAreLittleEndian := by
  refine ⟨fun s u w a q h hu hs => ?_, fun s u w a c h hu hc hv => ?_⟩
  · obtain ⟨-, t, out, hbody, rfl⟩ := exec_succeeds (by simp) h hu
    obtain ⟨q', hs', -, -, rfl, rfl⟩ := pushField_eq_ok.1 hbody
    cases hs'.symm.trans hs
    refine ⟨_, sink_setSink_self hs, by simp, fun j hj => List.getElem?_append_left hj, fun j hj => ?_⟩
    rw [List.getElem?_append_right (Nat.le_add_right _ _), Nat.add_sub_cancel_left, getElem?_bitsOf hj,
      testBit_dinField hj]
  · obtain ⟨-, t, out, hbody, rfl⟩ := exec_succeeds (by simp) h hu
    obtain ⟨c', hc', -, -, hlen, rfl, rfl⟩ := readField_eq_ok.1 hbody
    cases hc'.symm.trans hc
    have hdout : ∀ j, (s.setDout (fromBits (slice c.seq c.off (s.fieldWidth w)))).dout.getLsbD j =
        (decide (j < s.fieldWidth w) && c.seq[c.off + j]?.getD false) := fun j => getLsbD_setDout_slice le_rfl
    refine ⟨fun j hj => ?_, fun j hj => ?_⟩
    · have hin : c.off + j < c.seq.length := by omega
      refine Eq.trans ?_ (congrArg some (hdout j)).symm
      rw [decide_eq_true hj, Bool.true_and, List.getElem?_eq_getElem hin, Option.getD_some]
    · refine (hdout j).trans ?_
      rw [decide_eq_false (by omega), Bool.false_and]

/-- Settles O45: each read of one bit or more passes the end; a read of none succeeds and moves no offset. -/
theorem exhaustedCursorsRefuseReads : Obligations.ExhaustedCursorsRefuseReads := by
  intro s a c hrun hp ha hc hv hend
  have hacc : ∀ i : Instr, i.indexOk s.cfg = decide (a.toNat < s.cfg.nc) → i.noAlias = true →
      i.payloadNeed = 0 → s.accepts i = true :=
    fun i hidx => accepts_of_payload_nil hrun hp (hidx.trans (decide_eq_true ha))
  have hstay : (s.setCursor a ⟨true, c.seq, c.off + 0⟩).cursor a = some c := by
    rw [cursor_setCursor_self hc, ← hv, Nat.add_zero]
  refine ⟨⟨_, perform_query_valid (hacc (.cexh a) rfl rfl rfl) hc hv, ?_, hrun⟩, ?_, fun w => ?_,
    fun w n hpos hn => ?_, fun count hpos => ?_, fun w => ?_, ?_⟩
  · exact (setDout_bool _).trans (if_pos (decide_eq_true hend.ge))
  · obtain ⟨-, hbounds, -⟩ := (crdbReadsOneBit a).2 s c (hacc _ rfl rfl rfl) hc
    exact hbounds hv (by omega)
  · obtain ⟨-, hbounds, -⟩ := (crdfReadsAField w a).2 s c (hacc _ rfl rfl rfl) hc
    have hpos : 1 ≤ s.fieldWidth w := one_le_fieldWidth
    exact hbounds hv (by omega)
  · obtain ⟨-, -, hbounds, -⟩ := (crdtReadsLowBits w a n).2 s c (hacc _ rfl rfl rfl) hc
    exact hbounds hv hn (by omega)
  · obtain ⟨-, hbounds, -⟩ := (crdyReadsBytes a count).2 s c (hacc _ rfl rfl rfl) hc
    exact hbounds hv (by omega)
  · obtain ⟨-, -, -, hread⟩ := (crdtReadsLowBits w a 0).2 s c (hacc _ rfl rfl rfl) hc
    obtain ⟨d, -, -, hexec⟩ := hread hv (Nat.zero_le _) hend.le
    exact ⟨_, hexec, hrun, hstay⟩
  · obtain ⟨-, -, hread⟩ := (crdyReadsBytes a 0).2 s c (hacc _ rfl rfl rfl) hc
    obtain ⟨out, -, -, hexec⟩ := hread hv hend.le
    exact ⟨_, hexec, hrun, hstay⟩

end Sys2Proof.Machine
end

section
/-! PROOFS. What issuing an assembled command to a running block does (spec/30_encoding.md R92, R95), and the
obligations about sequences of commands: byte runs (spec/40_sink.md R123, spec/41_cursor.md R181) and round trips
(R182). -/

namespace Sys2Proof.Machine

/-- `s` after the response to its only pending command. -/
def State.done (s : State) (out : List Byte) : State :=
  { s with chan := [], reply := some (.response ⟨s.status, s.dout, out⟩) }

section Done
variable {s : State} {a : CtxIdx} {out out' : List Byte} {q r : Bits} {c d : Cursor}

@[simp] theorem done_cfg : (s.done out).cfg = s.cfg := rfl
@[simp] theorem done_status : (s.done out).status = s.status := rfl
@[simp] theorem done_dout : (s.done out).dout = s.dout := rfl
@[simp] theorem done_reply : (s.done out).reply = some (.response ⟨s.status, s.dout, out⟩) := rfl
@[simp] theorem sink_done : (s.done out).sink a = s.sink a := rfl
@[simp] theorem cursor_done : (s.done out).cursor a = s.cursor a := rfl

/-- Of two commands that write one context, the last write and the last response stay. -/
theorem done_setSeq_done : (((s.setSeq a q).done out).setSeq a r).done out' = (s.setSeq a r).done out' := by
  simp [State.setSeq, State.setSink, State.done]

theorem done_setCursor_done :
    (((s.setCursor a c).done out).setCursor a d).done out' = (s.setCursor a d).done out' := by
  simp [State.setCursor, State.done]

end Done

section Issue
variable {s t u : State} {l : AsmLine} {a b : CtxIdx} {w : WSel} {n : Nat} {out : List Byte} {q : Bits} {off : Nat}

/-- An assembled command succeeds exactly on a running block that it is well formed for, when its body does. -/
theorem issue_assemble_iff (hi : l.instr ≠ .srst) (hlen : l.payload.length < 2 ^ 16) :
    issue (assemble l) s = .next u ∧ u.halted = false ↔
      s.halted = false ∧ l.instr.wf s.cfg = true ∧
        ∃ t out, commandBody (s.offering (.command (assemble l))) l.instr = .ok (t, out) ∧ u = t.done out := by
  have hissue : issue (assemble l) s = closing (answerCommand (assemble l) (s.offering (.command (assemble l)))) :=
    step_command rfl
  have hdone : ∀ {t out}, commandBody (s.offering (.command (assemble l))) l.instr = .ok (t, out) →
      t.halted = s.halted ∧ (t.respond out).closeHead = t.done out := by
    intro t out hbody
    have hperf := performed_of_body_eq_ok hi hbody
    obtain ⟨-, hchan, -⟩ := hperf.keeps
    exact ⟨hperf.halted_eq, closeHead_of_chan (s := t.respond out) hchan⟩
  constructor
  · rintro ⟨h, hu⟩
    obtain ⟨v, hans, rfl⟩ := closing_eq_next.1 (hissue.symm.trans h)
    obtain ⟨hhalt, rfl⟩ | ⟨-, rfl⟩ | ⟨i, hd, hexec⟩ := answerCommand_cases hans
    · exact absurd (hhalt.symm.trans hu) (by decide)
    · exact absurd (halted_faultEntry (s := s.offering (.command (assemble l)))
        (f := .illegalCmd) |>.symm.trans hu) (by decide)
    · obtain ⟨hwf, rfl⟩ := (decode_assemble_eq_ok_iff hlen).1 hd
      obtain ⟨hacc, t, out, hbody, rfl⟩ := exec_succeeds hi hexec hu
      exact ⟨(accepts_iff.1 hacc).1, hwf, t, out, hbody, (hdone hbody).2⟩
  · rintro ⟨hrun, hwf, t, out, hbody, rfl⟩
    obtain ⟨hhalted, hclose⟩ := hdone hbody
    have hlegal : l.instr.legal s.cfg l.payload.length = true := by
      simp [Instr.legal, hwf, payloadNeed_instr hlen]
    have hacc : (s.offering (.command (assemble l))).accepts l.instr = true := accepts_iff.2 ⟨hrun, hlegal⟩
    have hd : (assemble l).decode s.cfg = .ok l.instr := (decode_assemble_eq_ok_iff hlen).2 ⟨hwf, rfl⟩
    refine ⟨?_, hhalted.trans hrun⟩
    rw [hissue, answerCommand_of_decode (s := s.offering _) hd, exec_eq_perform_body hi, perform_ok hacc hbody,
      ← hclose]
    rfl

/-! ### Commands by what they write -/

theorem issue_spushy_iff {B : List Byte} (hlen : B.length < 2 ^ 16) :
    issue (assemble (.spushy a B)) s = .next u ∧ u.halted = false ↔
      s.halted = false ∧ a.toNat < s.cfg.ns ∧ ∃ q, s.sink a = some ⟨.active, q⟩ ∧
        q.length + 8 * B.length ≤ s.cfg.capBits ∧ u = (s.setSeq a (q ++ bytesToSeq B)).done [] := by
  rw [issue_assemble_iff (l := .spushy a B) (by simp [AsmLine.instr]) hlen]
  simp only [AsmLine.instr, Instr.wf, Instr.indexOk, Instr.noAlias, Bool.and_true, decide_eq_true_eq, commandBody,
    bind_eq_ok, activeSeq_eq_ok, append_eq_ok, length_bytesToSeq]
  constructor
  · rintro ⟨hrun, ha, t, out, ⟨q, hs, hcap, rfl, rfl⟩, rfl⟩
    exact ⟨hrun, ha, q, hs, hcap, rfl⟩
  · rintro ⟨hrun, ha, q, hs, hcap, rfl⟩
    exact ⟨hrun, ha, _, _, ⟨q, hs, hcap, rfl, rfl⟩, rfl⟩

theorem issue_crdy_iff {k : Nat} (hk : k < 2 ^ 16) :
    issue (assemble (.crdy a (BitVec.ofNat 16 k))) s = .next u ∧ u.halted = false ↔
      s.halted = false ∧ a.toNat < s.cfg.nc ∧ ∃ c, s.cursor a = some c ∧ c.valid = true ∧
        c.off + 8 * k ≤ c.seq.length ∧
        u = (s.setCursor a { c with off := c.off + 8 * k }).done (readRun c.seq c.off k) := by
  have hcount : (BitVec.ofNat 16 k).toNat = k := Nat.mod_eq_of_lt hk
  rw [issue_assemble_iff (l := .crdy a (BitVec.ofNat 16 k)) (by simp [AsmLine.instr]) (Nat.two_pow_pos 16)]
  simp only [AsmLine.instr, Instr.wf, Instr.indexOk, Instr.noAlias, Bool.and_true, decide_eq_true_eq, commandBody,
    bind_eq_ok, validCursor_eq_ok, advance_eq_ok, hcount]
  constructor
  · rintro ⟨hrun, ha, t, out, ⟨c, ⟨hc, hv⟩, t', ⟨hlen, rfl⟩, ⟨⟩⟩, rfl⟩
    exact ⟨hrun, ha, c, hc, hv, hlen, rfl⟩
  · rintro ⟨hrun, ha, c, hc, hv, hlen, rfl⟩
    exact ⟨hrun, ha, _, _, ⟨c, ⟨hc, hv⟩, _, ⟨hlen, rfl⟩, rfl⟩, rfl⟩

/-- A successful CNEWB constructs a cursor over the bits of its bytes. -/
theorem eq_of_issue_cnewb {B : List Byte} (hlen : B.length < 2 ^ 16)
    (h : issue (assemble (.cnewb a B)) s = .next u) (hu : u.halted = false) :
    u = (s.setCursor a (Cursor.over (bytesToSeq B))).done [] := by
  obtain ⟨-, -, t, out, hbody, rfl⟩ :=
    (issue_assemble_iff (l := .cnewb a B) (by simp [AsmLine.instr]) hlen).1 ⟨h, hu⟩
  obtain ⟨⟨⟩, -, hbody⟩ := bind_eq_ok.1 hbody
  cases hbody
  rfl

/-- Finalizing a sink gives its bits to cursor b, at offset 0. -/
theorem issue_sfinc (hrun : s.halted = false) (ha : a.toNat < s.cfg.ns) (hb : b.toNat < s.cfg.nc)
    (hs : s.sink a = some ⟨.active, q⟩) (hc : (s.cursor b).isSome = true) :
    ∃ t, issue (assemble (.sfinc a b)) s = .next t ∧ t.halted = false ∧ t.cfg = s.cfg ∧
      t.cursor b = some ⟨true, q, 0⟩ := by
  obtain ⟨c, hc⟩ := Option.isSome_iff_exists.1 hc
  have hwf : (Instr.sfinc a b).wf s.cfg = true := by simp [Instr.wf, Instr.indexOk, Instr.noAlias, ha, hb]
  obtain ⟨h, -⟩ := (issue_assemble_iff (l := .sfinc a b) (by simp [AsmLine.instr]) (Nat.two_pow_pos 16)).2
    ⟨hrun, hwf, _, _, activeSeq_bind_active hs, rfl⟩
  exact ⟨_, h, hrun, rfl, cursor_setCursor_self hc⟩

section Field
variable (hi : l.instr ≠ .srst) (hp : l.payload = []) (hrun : s.halted = false) (hwf : l.instr.wf s.cfg = true)
  (hn : n ≤ s.fieldWidth w)
include hi hp hrun hwf hn

/-- A push of the n low bits of DIN, n ≤ N: SPUSHF and SPUSHT. -/
theorem issue_pushField (hbody : commandBody (s.offering (.command (assemble l))) l.instr =
    (s.offering (.command (assemble l))).pushField w a n)
    (hs : s.sink a = some ⟨.active, q⟩) (hcap : q.length + n ≤ s.cfg.capBits) :
    issue (assemble l) s = .next ((s.setSeq a (q ++ bitsOf (l.din.toNat % 2 ^ s.fieldWidth w) n)).done []) :=
  ((issue_assemble_iff hi (by simp [hp])).2
    ⟨hrun, hwf, _, _, hbody.trans (pushField_fits (s := s.offering _) hs hn hcap), rfl⟩).1

/-- A read of n ≤ N bits into DOUT: CRDF and CRDT. -/
theorem issue_readField (hbody : commandBody (s.offering (.command (assemble l))) l.instr =
    (s.offering (.command (assemble l))).readField w b n)
    (hc : s.cursor b = some ⟨true, q, off⟩) (hlen : off + n ≤ q.length) :
    issue (assemble l) s =
      .next (((s.setCursor b ⟨true, q, off + n⟩).setDout (fromBits (slice q off n))).done []) :=
  ((issue_assemble_iff hi (by simp [hp])).2
    ⟨hrun, hwf, _, _, hbody.trans (readField_eq_ok.2 ⟨_, hc, rfl, hn, hlen, rfl, rfl⟩), rfl⟩).1

end Field

end Issue

/-! ### Byte runs -/

/-- A run is the run of its first k bytes and the run after them. -/
theorem readRun_add (q : Bits) (off k k' : Nat) :
    readRun q off (k + k') = readRun q off k ++ readRun q (off + 8 * k) k' := by
  simp only [readRun, List.range_add, List.map_append, List.map_map]
  congr 1
  apply List.map_congr_left
  intro j _
  simp [Nat.mul_add, Nat.add_assoc]

/-- Settles O49: each run appends or reads at the place where the one before ended, and only the last write of the
context stays. -/
theorem runsConcatenate : Obligations.RunsConcatenate := by
  refine ⟨fun s t u a B B' hlen ht hu hrun => ?_, fun s t u a k k' hlen ht hu hrun => ?_⟩
  · rw [List.length_append] at hlen
    obtain ⟨hrunt, -, q', hs', hcap', rfl⟩ := (issue_spushy_iff (by omega)).1 ⟨hu, hrun⟩
    obtain ⟨hruns, ha, q, hs, -, rfl⟩ := (issue_spushy_iff (by omega)).1 ⟨ht, hrunt⟩
    cases (sink_setSink_self hs).symm.trans hs'
    refine ((issue_spushy_iff (by rwa [List.length_append])).2 ⟨hruns, ha, q, hs, ?_, ?_⟩).1
    · simp only [List.length_append, length_bytesToSeq, done_cfg, setSeq_cfg] at hcap' ⊢
      omega
    · rw [bytesToSeq_append, ← List.append_assoc]
      exact done_setSeq_done
  · obtain ⟨hrunt, -, c', hc', hv, hlen', rfl⟩ := (issue_crdy_iff (by omega)).1 ⟨hu, hrun⟩
    obtain ⟨hruns, ha, c, hc, -, -, rfl⟩ := (issue_crdy_iff (by omega)).1 ⟨ht, hrunt⟩
    cases (cursor_setCursor_self hc).symm.trans hc'
    refine ⟨readRun c.seq c.off k, readRun c.seq (c.off + 8 * k) k', rfl, rfl, ?_⟩
    refine ((issue_crdy_iff hlen).2 ⟨hruns, ha, c, hc, hv, ?_, ?_⟩).1
    · simp only at hlen'
      omega
    · rw [readRun_add, Nat.mul_add, ← Nat.add_assoc, done_setCursor_done]
      rfl

/-- Settles O52: the image by its bytes, the bits by `bytesToSeq`'s laws, and the view by CNEWB's one write. -/
theorem byteImageInvertsBytes : Obligations.ByteImageInvertsBytes := by
  refine ⟨fun B => ⟨length_bytesToSeq B, fun k i hi => getElem?_bytesToSeq B k hi, seqToBytes_bytesToSeq B⟩,
    fun s t a c B hc hlen h ht => ?_⟩
  rw [eq_of_issue_cnewb hlen h ht]
  exact cursor_setCursor_self hc

/-! ### Round trips -/

section RoundTrip
variable {s t : State} {l : AsmLine} {c : Command} {cs : List Command} {a b : CtxIdx} {w : WSel} {p r : Bits}

theorem issueAll_cons_of_next (h : issue c s = .next t) : issueAll (c :: cs) s = issueAll cs t := by
  simp [issueAll, h]

theorem fieldWidth_of_cfg_eq (h : t.cfg = s.cfg) : t.fieldWidth w = s.fieldWidth w := by
  cases w with
  | wW => rw [State.fieldWidth, h, State.fieldWidth]
  | _ => rfl

/-- The bits r after the stray bits p of a view. -/
theorem slice_append_right : slice (p ++ r) p.length r.length = r := by
  simpa using slice_eq_of_append p r []

/-- A run read after p, whatever |p| mod 8 is, is the run of what follows p. -/
theorem readRun_append_right (k : Nat) : readRun (p ++ r) p.length k = (List.range k).map (imageByte r) := by
  have hslice : ∀ j, slice (p ++ r) (p.length + 8 * j) 8 = slice r (8 * j) 8 := fun j => by
    rw [slice, slice, List.drop_length_add_append]
  simp only [readRun, hslice]
  rfl

theorem readRun_bytesToSeq (B : List Byte) : readRun (p ++ bytesToSeq B) p.length B.length = B := by
  rw [readRun_append_right, ← byteCount_bytesToSeq B, ← seqToBytes, seqToBytes_bytesToSeq]

/-- Pushing r after the |p| ≤ 7 stray bits of sink a, finalizing it and reading |p| bits leaves cursor b before r. -/
theorem issueAll_push_sfinc_skip (hinv : s.Inv) (hrun : s.halted = false) (ha : a.toNat < s.cfg.ns)
    (hb : b.toNat < s.cfg.nc) (hs : s.sink a = some ⟨.active, p⟩) (hp : p.length ≤ 7)
    (hpush : issue (assemble l) s = .next ((s.setSeq a (p ++ r)).done [])) (cs : List Command) :
    ∃ t, issueAll (assemble l :: assemble (.sfinc a b) ::
        assemble (.crdt .w8 b (BitVec.ofNat 16 p.length)) :: cs) s = issueAll cs t ∧
      t.halted = false ∧ t.cfg = s.cfg ∧ t.cursor b = some ⟨true, p ++ r, p.length⟩ := by
  have hcount : (BitVec.ofNat 16 p.length).toNat = p.length := by
    rw [BitVec.toNat_ofNat]
    omega
  obtain ⟨t, hfin, hrunt, hcfg, hc⟩ := issue_sfinc (s := (s.setSeq a (p ++ r)).done []) (b := b) hrun ha hb
    (sink_setSink_self hs) (isSome_cursor (s := s) hinv hb)
  have hskip := issue_readField (l := .crdt .w8 b (BitVec.ofNat 16 p.length)) (w := .w8) (n := p.length)
    (by simp [AsmLine.instr]) rfl hrunt ((Bool.and_true _).trans (decide_eq_true (hcfg ▸ hb)))
    (hp.trans (show 7 ≤ 8 by decide)) (by rw [AsmLine.instr, commandBody, hcount]) hc (by simp)
  refine ⟨_, (issueAll_cons_of_next hpush).trans ((issueAll_cons_of_next hfin).trans
    (issueAll_cons_of_next hskip)), hrunt, hcfg, ?_⟩
  rw [cursor_done, cursor_setDout, cursor_setCursor_self hc, Nat.zero_add]

/-- Reading the |r| bits after the stray ones gives their number and exhausts the cursor. -/
theorem issue_readField_rest (hi : l.instr ≠ .srst) (hpay : l.payload = []) (hrun : s.halted = false)
    (hwf : l.instr.wf s.cfg = true) (hn : r.length ≤ s.fieldWidth w)
    (hbody : commandBody (s.offering (.command (assemble l))) l.instr =
      (s.offering (.command (assemble l))).readField w b r.length)
    (hc : s.cursor b = some ⟨true, p ++ r, p.length⟩) :
    ∃ t, issue (assemble l) s = .next t ∧ t.halted = false ∧ t.dout.toNat = fromBits r ∧
      t.cursor b = some ⟨true, p ++ r, p.length + r.length⟩ := by
  refine ⟨_, issue_readField hi hpay hrun hwf hn hbody hc (by simp), hrun, ?_, cursor_setCursor_self hc⟩
  rw [done_dout, slice_append_right]
  exact setDout_toNat (fromBits_lt r) hn

end RoundTrip

/-- Settles O56: the bits read after the stray ones are the field pushed, whose number is the value. -/
theorem fixedFieldsRoundTrip : Obligations.FixedFieldsRoundTrip := by
  intro s w a b p v hinv hrun ha hb hs hp hcap hv
  have hpush := issue_pushField (l := .spushf w a v) (by simp [AsmLine.instr]) rfl hrun
    ((Bool.and_true _).trans (decide_eq_true ha)) le_rfl rfl hs hcap
  rw [AsmLine.din, Nat.mod_eq_of_lt hv] at hpush
  obtain ⟨t, htail, hrunt, hcfg, hc⟩ :=
    issueAll_push_sfinc_skip hinv hrun ha hb hs hp hpush [assemble (.crdf w b)]
  have hwidth : t.fieldWidth w = s.fieldWidth w := fieldWidth_of_cfg_eq hcfg
  obtain ⟨u, hread, hrunu, hdout, hcur⟩ := issue_readField_rest (l := .crdf w b) (w := w) (by simp [AsmLine.instr])
    rfl hrunt ((Bool.and_true _).trans (decide_eq_true (hcfg ▸ hb))) (by simp [hwidth])
    (by rw [length_bitsOf, ← hwidth]; rfl) hc
  refine ⟨u, htail.trans (issueAll_cons_of_next hread), hrunu, BitVec.eq_of_toNat_eq ?_, ?_⟩
  · rw [hdout, fromBits_bitsOf, Nat.mod_eq_of_lt hv]
  · rw [hcur, length_bitsOf]

/-- Settles O57: the bits read after the stray ones are the n low bits of the field, and n ≤ N. -/
theorem truncatedFieldsRoundTrip : Obligations.TruncatedFieldsRoundTrip := by
  intro s w a b p v n hinv hrun ha hb hs hp hn hcap
  have hpush := issue_pushField (l := .spusht w a v n) (by simp [AsmLine.instr]) rfl hrun
    ((Bool.and_true _).trans (decide_eq_true ha)) hn rfl hs hcap
  rw [AsmLine.din] at hpush
  obtain ⟨t, htail, hrunt, hcfg, hc⟩ :=
    issueAll_push_sfinc_skip hinv hrun ha hb hs hp hpush [assemble (.crdt w b n)]
  have hwidth : t.fieldWidth w = s.fieldWidth w := fieldWidth_of_cfg_eq hcfg
  obtain ⟨u, hread, hrunu, hdout, -⟩ := issue_readField_rest (l := .crdt w b n) (w := w) (by simp [AsmLine.instr])
    rfl hrunt ((Bool.and_true _).trans (decide_eq_true (hcfg ▸ hb))) (by simpa [hwidth] using hn)
    (by rw [length_bitsOf]; rfl) hc
  refine ⟨u, htail.trans (issueAll_cons_of_next hread), hrunu, ?_⟩
  rw [hdout, fromBits_bitsOf, Nat.mod_mod_of_dvd _ (Nat.pow_dvd_pow 2 hn)]

/-- Settles O58: the run read after the stray bits is the byte image of the bits pushed, which is the bytes. -/
theorem byteRunsRoundTrip : Obligations.ByteRunsRoundTrip := by
  intro s a b p B hinv hrun ha hb hs hp hlen hcap
  obtain ⟨hpush, -⟩ := (issue_spushy_iff hlen).2 ⟨hrun, ha, p, hs, hcap, rfl⟩
  obtain ⟨t, htail, hrunt, hcfg, hc⟩ :=
    issueAll_push_sfinc_skip hinv hrun ha hb hs hp hpush [assemble (.crdy b (BitVec.ofNat 16 B.length))]
  obtain ⟨hread, hrunu⟩ := (issue_crdy_iff hlen).2 ⟨hrunt, hcfg ▸ hb, _, hc, rfl, by simp, rfl⟩
  refine ⟨_, htail.trans (issueAll_cons_of_next hread), hrunu, ?_⟩
  rw [done_reply, readRun_bytesToSeq]
  rfl

end Sys2Proof.Machine
end
